-- ==== Sys2Proof/Word.lean ====
section
/-!
DEFINITION. The widths of the machine (rule R8): the word types every other file is written in.
-/

namespace Sys2Proof

/-- A memory cell, a general register, a timer (R8): 8 bits. -/
abbrev Byte := BitVec 8

/-- The index register, the program counter, a stack entry, an instruction word (R8): 16 bits. -/
abbrev Word := BitVec 16

/-- A 4-bit field of an instruction word that is a number and not a register name (R9, R72: `n`). -/
abbrev Nibble := BitVec 4

/-- The 12-bit address field `nnn` (R9, R72). -/
abbrev Addr12 := BitVec 12

/-- The index of a general register V[0] .. V[15] (R23). -/
abbrev RegIdx := Fin 16

end Sys2Proof
end

