-- ==== Sys2Proof/Config.lean ====
section
/-!
DEFINITION. The parameters of the model (rule R7) and its free values.
The two quirk flags and the program are arguments of `construct` and fields of `State`; they are not here.
-/

namespace Sys2Proof.Config

/-- MEM_SIZE (R7): the number of cells of the one address space. -/
def memSize : Nat := 4096

/-- PROG_BASE (R7): where `construct` places the program, and the pc after it (R28, R240). -/
def progBase : Nat := 512

/-- The longest program `construct` accepts (R58): memory size minus 512. -/
def maxProgram : Nat := 3584

/-- STACK_LIMIT (R7, R42): the spec's value is `none`, no cap on the call depth. Log entry 14. -/
def stackLimit : Option Nat := none

/-- FONT (R7, R57): 16 glyphs of 5 bytes, glyph d at address 5 * d.
PRESUMED: the bytes are the spec's passage from general knowledge (G1). Log entry 6. -/
def font : List Byte :=
  [0xF0, 0x90, 0x90, 0x90, 0xF0] ++   -- 0
  [0x20, 0x60, 0x20, 0x20, 0x70] ++   -- 1
  [0xF0, 0x10, 0xF0, 0x80, 0xF0] ++   -- 2
  [0xF0, 0x10, 0xF0, 0x10, 0xF0] ++   -- 3
  [0x90, 0x90, 0xF0, 0x10, 0x10] ++   -- 4
  [0xF0, 0x80, 0xF0, 0x10, 0xF0] ++   -- 5
  [0xF0, 0x80, 0xF0, 0x90, 0xF0] ++   -- 6
  [0xF0, 0x10, 0x20, 0x40, 0x40] ++   -- 7
  [0xF0, 0x90, 0xF0, 0x90, 0xF0] ++   -- 8
  [0xF0, 0x90, 0xF0, 0x10, 0xF0] ++   -- 9
  [0xF0, 0x90, 0xF0, 0x90, 0x90] ++   -- A
  [0xE0, 0x90, 0xE0, 0x90, 0xE0] ++   -- B
  [0xF0, 0x80, 0x80, 0x80, 0xF0] ++   -- C
  [0xE0, 0x90, 0x90, 0x90, 0xE0] ++   -- D
  [0xF0, 0x80, 0xF0, 0x80, 0xF0] ++   -- E
  [0xF0, 0x80, 0xF0, 0x80, 0x80]      -- F

/-- The free input `rnd` of `step` (R7, R100, R142): the byte the n-th consumed input gives.
A FREE VALUE: it has no body, so nothing can be proved of it. Log entry 3. -/
opaque randomByte : Nat → Byte

/-- The free input `pressed` of `step` (R7, R100, R172): the host's answer the n-th consumed input gives.
A FREE VALUE: it has no body, so nothing can be proved of it. Log entry 3. -/
opaque keyPressed : Nat → Bool

/-- STEPS_PER_TICK (R7, R164): how many steps the driver runs per timer tick. Open, and no rule of the core
reads it; only the driver's pattern `Machine.intendedRound` and `Machine.driverRound` (R247) do. Log entry 25. -/
opaque stepsPerTick : Nat

end Sys2Proof.Config
end

