-- ==== Sys2Proof/Syntax.lean ====
section
/-!
DEFINITION. The instructions as syntax: one constructor of `Instr` per row of spec/opcode_table.json (rule R74),
the row names `Op`, the six formats (R71), the mnemonics (R74, R86) and the operand shapes (R87).
-/

namespace Sys2Proof

/-- The 34 instructions (R74), operands in the order of their fields, most significant first (R86).
Every operand's type is exactly its field (R72), so there is no ill-formed `Instr`. -/
inductive Instr where
  /-- `00E0` -/
  | cls
  /-- `00EE` -/
  | ret
  /-- `1nnn` -/
  | jp (nnn : Addr12)
  /-- `2nnn` -/
  | call (nnn : Addr12)
  /-- `3xnn` -/
  | se (x : RegIdx) (nn : Byte)
  /-- `4xnn` -/
  | sne (x : RegIdx) (nn : Byte)
  /-- `5xy0`; the interpreter ignores the last nibble (R75) -/
  | ser (x y : RegIdx)
  /-- `6xnn` -/
  | ld (x : RegIdx) (nn : Byte)
  /-- `7xnn` -/
  | add (x : RegIdx) (nn : Byte)
  /-- `8xy0` -/
  | mov (x y : RegIdx)
  /-- `8xy1` -/
  | or (x y : RegIdx)
  /-- `8xy2` -/
  | and (x y : RegIdx)
  /-- `8xy3` -/
  | xor (x y : RegIdx)
  /-- `8xy4` -/
  | addr (x y : RegIdx)
  /-- `8xy5` -/
  | sub (x y : RegIdx)
  /-- `8xy6` -/
  | shr (x y : RegIdx)
  /-- `8xy7` -/
  | subn (x y : RegIdx)
  /-- `8xyE` -/
  | shl (x y : RegIdx)
  /-- `9xy0`; the interpreter ignores the last nibble (R75) -/
  | sner (x y : RegIdx)
  /-- `Annn` -/
  | ldi (nnn : Addr12)
  /-- `Bnnn` -/
  | jpv (nnn : Addr12)
  /-- `Cxnn` -/
  | rnd (x : RegIdx) (nn : Byte)
  /-- `Dxyn` -/
  | drw (x y : RegIdx) (n : Nibble)
  /-- `Ex9E` -/
  | skp (x : RegIdx)
  /-- `ExA1` -/
  | sknp (x : RegIdx)
  /-- `Fx07` -/
  | gdt (x : RegIdx)
  /-- `Fx0A` -/
  | wkey (x : RegIdx)
  /-- `Fx15` -/
  | sdt (x : RegIdx)
  /-- `Fx18` -/
  | sst (x : RegIdx)
  /-- `Fx1E` -/
  | addi (x : RegIdx)
  /-- `Fx29` -/
  | font (x : RegIdx)
  /-- `Fx33` -/
  | bcd (x : RegIdx)
  /-- `Fx55` -/
  | stm (x : RegIdx)
  /-- `Fx65` -/
  | ldm (x : RegIdx)
  deriving DecidableEq, Repr

/-- The names of the 34 rows of the opcode table (R74), in its order. -/
inductive Op where
  | cls | ret | jp | call | se | sne | ser | ld | add
  | mov | or | and | xor | addr | sub | shr | subn | shl
  | sner | ldi | jpv | rnd | drw | skp | sknp
  | gdt | wkey | sdt | sst | addi | font | bcd | stm | ldm
  deriving DecidableEq, Repr

/-- The six instruction formats (R71). -/
inductive Format where
  | fixed | addr | regImm | regReg | regRegN | regSel
  deriving DecidableEq, Repr

/-- The rows in the order of R74. -/
def Op.all : List Op :=
  [.cls, .ret, .jp, .call, .se, .sne, .ser, .ld, .add] ++
  [.mov, .or, .and, .xor, .addr, .sub, .shr, .subn, .shl] ++
  [.sner, .ldi, .jpv, .rnd, .drw, .skp, .sknp] ++
  [.gdt, .wkey, .sdt, .sst, .addi, .font, .bcd, .stm, .ldm]

/-- The mnemonic of a row (R74, R86, decision D1; log entry 27). -/
def Op.mnemonic : Op → String
  | .cls => "CLS" | .ret => "RET" | .jp => "JP" | .call => "CALL"
  | .se => "SE" | .sne => "SNE" | .ser => "SER" | .ld => "LD" | .add => "ADD"
  | .mov => "MOV" | .or => "OR" | .and => "AND" | .xor => "XOR" | .addr => "ADDR"
  | .sub => "SUB" | .shr => "SHR" | .subn => "SUBN" | .shl => "SHL" | .sner => "SNER"
  | .ldi => "LDI" | .jpv => "JPV" | .rnd => "RND" | .drw => "DRW"
  | .skp => "SKP" | .sknp => "SKNP" | .gdt => "GDT" | .wkey => "WKEY"
  | .sdt => "SDT" | .sst => "SST" | .addi => "ADDI" | .font => "FONT"
  | .bcd => "BCD" | .stm => "STM" | .ldm => "LDM"

/-- The format of a row (R74). -/
def Op.format : Op → Format
  | .cls | .ret => .fixed
  | .jp | .call | .ldi | .jpv => .addr
  | .se | .sne | .ld | .add | .rnd => .regImm
  | .ser | .sner | .mov | .or | .and | .xor | .addr | .sub | .shr | .subn | .shl => .regReg
  | .drw => .regRegN
  | .skp | .sknp | .gdt | .wkey | .sdt | .sst | .addi | .font | .bcd | .stm | .ldm => .regSel

/-- For each operand of a format, in order, the number its value must stay below (R72, R87). -/
def Format.limits : Format → List Nat
  | .fixed => []
  | .addr => [4096]
  | .regImm => [16, 256]
  | .regReg => [16, 16]
  | .regRegN => [16, 16, 16]
  | .regSel => [16]

/-- The row an instruction belongs to. -/
def Instr.op : Instr → Op
  | .cls => .cls | .ret => .ret | .jp _ => .jp | .call _ => .call
  | .se _ _ => .se | .sne _ _ => .sne | .ser _ _ => .ser | .ld _ _ => .ld | .add _ _ => .add
  | .mov _ _ => .mov | .or _ _ => .or | .and _ _ => .and | .xor _ _ => .xor | .addr _ _ => .addr
  | .sub _ _ => .sub | .shr _ _ => .shr | .subn _ _ => .subn | .shl _ _ => .shl | .sner _ _ => .sner
  | .ldi _ => .ldi | .jpv _ => .jpv | .rnd _ _ => .rnd | .drw _ _ _ => .drw
  | .skp _ => .skp | .sknp _ => .sknp | .gdt _ => .gdt | .wkey _ => .wkey
  | .sdt _ => .sdt | .sst _ => .sst | .addi _ => .addi | .font _ => .font
  | .bcd _ => .bcd | .stm _ => .stm | .ldm _ => .ldm

/-- An instruction's operands as the codec's "ordered list of non-negative integer operands" (R45, R86). -/
def Instr.operands : Instr → List Nat
  | .cls | .ret => []
  | .jp a | .call a | .ldi a | .jpv a => [a.toNat]
  | .se x k | .sne x k | .ld x k | .add x k | .rnd x k => [x.val, k.toNat]
  | .ser x y | .sner x y | .mov x y | .or x y | .and x y | .xor x y | .addr x y
  | .sub x y | .shr x y | .subn x y | .shl x y => [x.val, y.val]
  | .drw x y n => [x.val, y.val, n.toNat]
  | .skp x | .sknp x | .gdt x | .wkey x | .sdt x | .sst x | .addi x | .font x
  | .bcd x | .stm x | .ldm x => [x.val]

end Sys2Proof
end

