-- ==== Sys2Proof/WellFormed.lean ====
section
/-!
DEFINITION. Well-formed instructions. `Instr`'s operand types are exactly the fields, so the checks of rules R87,
R190 and R191 bear on the codec's Instruction value (R45): a mnemonic name and a list of natural numbers.
-/

namespace Sys2Proof

/-- The codec's Instruction value (R45): "a mnemonic name plus an ordered list of non-negative integer operands". -/
structure SourceInstr where
  mnemonic : String
  operands : List Nat
  deriving DecidableEq, Repr

/-- Which check of R87 a source instruction breaks. -/
inductive IllFormed where
  /-- The mnemonic is none of the 34 (R188, R192). -/
  | unknownMnemonic
  /-- The number of operands is not the row's (R87, R190). -/
  | operandCount
  /-- An operand does not fit its field (R87, R191). -/
  | operandRange
  deriving DecidableEq, Repr

/-- The row a mnemonic names, compared exactly (R188). -/
def Op.ofMnemonic? (m : String) : Option Op :=
  Op.all.find? (fun o => o.mnemonic == m)

/-- Does every operand fit its field (R191)? The two lists have the same length where this is asked. -/
def operandsFit : List Nat → List Nat → Bool
  | [], _ => true
  | _, [] => true
  | v :: vs, l :: ls => decide (v < l) && operandsFit vs ls

/-- The first check of R87 that the operand list `vs` breaks for a row of format `f`. -/
def Format.check (f : Format) (vs : List Nat) : Option IllFormed :=
  if vs.length ≠ f.limits.length then some .operandCount
  else if operandsFit vs f.limits then none
  else some .operandRange

/-- The first check of R87 a source instruction breaks, or none. -/
def SourceInstr.problem (s : SourceInstr) : Option IllFormed :=
  match Op.ofMnemonic? s.mnemonic with
  | none => some .unknownMnemonic
  | some o => o.format.check s.operands

/-- A well-formed source instruction (R87). -/
def SourceInstr.wf (s : SourceInstr) : Bool := s.problem == none

/-- An instruction as the codec writes it. -/
def Instr.source (i : Instr) : SourceInstr := ⟨i.op.mnemonic, i.operands⟩

/-- A well-formed instruction: its mnemonic is known, and its operands are as many as its row's and fit their
fields. (Every `Instr` is: Laws/PerInstr.lean proves it.) -/
def Instr.wf (i : Instr) : Bool := i.source.wf

end Sys2Proof
end

