-- ==== Sys2Proof/Decode.lean ====
section
/-!
DEFINITION. The encoding: the fields of a word (rule R9), byte order (R53), the opcode table (R74, R92), the decoder
(R79), and after it the encoder (R90).
-/

namespace Sys2Proof

/-! ### Fields of an instruction word (R9, R71) -/

/-- `f1`, w[15:12]. -/
def fieldF1 (w : Word) : BitVec 4 := w.extractLsb' 12 4
/-- `x`, w[11:8]. -/
def fieldX (w : Word) : RegIdx := (w.extractLsb' 8 4).toFin
/-- `y`, w[7:4]. -/
def fieldY (w : Word) : RegIdx := (w.extractLsb' 4 4).toFin
/-- `n`, w[3:0]. -/
def fieldN (w : Word) : Nibble := w.extractLsb' 0 4
/-- `nn`, w[7:0]. -/
def fieldNN (w : Word) : Byte := w.extractLsb' 0 8
/-- `nnn`, w[11:0]. -/
def fieldNNN (w : Word) : Addr12 := w.extractLsb' 0 12

/-! ### Byte order (R53) -/

/-- The word whose byte at the lower address is `hi` (R51, R53): big-endian. -/
def wordOfBytes (hi lo : Byte) : Word := BitVec.ofNat 16 (hi.toNat * 256 + lo.toNat)

/-- The byte of a word at the lower address: bits 15..8 (R53, R90). -/
def highByte (w : Word) : Byte := BitVec.ofNat 8 (w.toNat / 256)

/-- The byte of a word at the higher address: bits 7..0 (R53, R90). -/
def lowByte (w : Word) : Byte := BitVec.ofNat 8 (w.toNat % 256)

/-- A word as it lies in memory and in ROM images (R53). -/
def bytesOfWord (w : Word) : List Byte := [highByte w, lowByte w]

/-! ### The opcode table (R74, R92) -/

/-- The row's `match` (R74). -/
def Op.code : Op → Word
  | .cls => 0x00E0 | .ret => 0x00EE | .jp => 0x1000 | .call => 0x2000
  | .se => 0x3000 | .sne => 0x4000 | .ser => 0x5000 | .ld => 0x6000 | .add => 0x7000
  | .mov => 0x8000 | .or => 0x8001 | .and => 0x8002 | .xor => 0x8003 | .addr => 0x8004
  | .sub => 0x8005 | .shr => 0x8006 | .subn => 0x8007 | .shl => 0x800E | .sner => 0x9000
  | .ldi => 0xA000 | .jpv => 0xB000 | .rnd => 0xC000 | .drw => 0xD000
  | .skp => 0xE09E | .sknp => 0xE0A1 | .gdt => 0xF007 | .wkey => 0xF00A
  | .sdt => 0xF015 | .sst => 0xF018 | .addi => 0xF01E | .font => 0xF029
  | .bcd => 0xF033 | .stm => 0xF055 | .ldm => 0xF065

/-- The interpreter's `mask` (R74): w is the instruction iff `w &&& mask = match`. -/
def Op.mask : Op → Word
  | .cls | .ret => 0xFFFF
  | .jp | .call | .se | .sne | .ser | .ld | .add | .sner | .ldi | .jpv | .rnd | .drw => 0xF000
  | .mov | .or | .and | .xor | .addr | .sub | .shr | .subn | .shl => 0xF00F
  | .skp | .sknp | .gdt | .wkey | .sdt | .sst | .addi | .font | .bcd | .stm | .ldm => 0xF0FF

/-- The codec's mask (R92, R198): `SER` and `SNER` also require the last nibble to be 0. -/
def Op.codecMask : Op → Word
  | .ser | .sner => 0xF00F
  | o => o.mask

/-! ### The decoder (R79) -/

/-- The groups of undefined words (R76). -/
inductive UndefinedGroup where
  /-- `0nnn` with nnn neither 0E0 nor 0EE. -/
  | group0
  /-- `8xyN` with N in 8, 9, A, B, C, D, F. -/
  | group8
  /-- `Exkk` with kk neither 9E nor A1. -/
  | groupE
  /-- `Fxkk` with kk none of the nine selectors. -/
  | groupF
  deriving DecidableEq, Repr

/-- What decoding a word answers: an instruction, or the name of the group of undefined words it is in. -/
inductive Decoded where
  | instr (i : Instr)
  | undefined (g : UndefinedGroup)
  deriving DecidableEq, Repr

/-- Group 0x0: all twelve low bits are compared (R73, conflict C1). -/
def decodeGroup0 (w : Word) : Decoded :=
  if fieldNNN w = 0x0E0#12 then .instr .cls
  else if fieldNNN w = 0x0EE#12 then .instr .ret
  else .undefined .group0

/-- Group 0x8: the nibble f4 selects (R73). -/
def decodeGroup8 (w : Word) : Decoded :=
  let x := fieldX w
  let y := fieldY w
  match fieldN w with
  | 0x0#4 => .instr (.mov x y)
  | 0x1#4 => .instr (.or x y)
  | 0x2#4 => .instr (.and x y)
  | 0x3#4 => .instr (.xor x y)
  | 0x4#4 => .instr (.addr x y)
  | 0x5#4 => .instr (.sub x y)
  | 0x6#4 => .instr (.shr x y)
  | 0x7#4 => .instr (.subn x y)
  | 0xE#4 => .instr (.shl x y)
  | _ => .undefined .group8

/-- Group 0xE: the low byte selects (R73). -/
def decodeGroupE (w : Word) : Decoded :=
  if fieldNN w = 0x9E#8 then .instr (.skp (fieldX w))
  else if fieldNN w = 0xA1#8 then .instr (.sknp (fieldX w))
  else .undefined .groupE

/-- Group 0xF: the low byte selects (R73). -/
def decodeGroupF (w : Word) : Decoded :=
  let x := fieldX w
  match fieldNN w with
  | 0x07#8 => .instr (.gdt x)
  | 0x0A#8 => .instr (.wkey x)
  | 0x15#8 => .instr (.sdt x)
  | 0x18#8 => .instr (.sst x)
  | 0x1E#8 => .instr (.addi x)
  | 0x29#8 => .instr (.font x)
  | 0x33#8 => .instr (.bcd x)
  | 0x55#8 => .instr (.stm x)
  | 0x65#8 => .instr (.ldm x)
  | _ => .undefined .groupF

/-- Decode one word, total on all 65536 (R79, R102). Groups 0x5 and 0x9 ignore the last nibble (R75). -/
def decode (w : Word) : Decoded :=
  match fieldF1 w with
  | 0x0#4 => decodeGroup0 w
  | 0x1#4 => .instr (.jp (fieldNNN w))
  | 0x2#4 => .instr (.call (fieldNNN w))
  | 0x3#4 => .instr (.se (fieldX w) (fieldNN w))
  | 0x4#4 => .instr (.sne (fieldX w) (fieldNN w))
  | 0x5#4 => .instr (.ser (fieldX w) (fieldY w))
  | 0x6#4 => .instr (.ld (fieldX w) (fieldNN w))
  | 0x7#4 => .instr (.add (fieldX w) (fieldNN w))
  | 0x8#4 => decodeGroup8 w
  | 0x9#4 => .instr (.sner (fieldX w) (fieldY w))
  | 0xA#4 => .instr (.ldi (fieldNNN w))
  | 0xB#4 => .instr (.jpv (fieldNNN w))
  | 0xC#4 => .instr (.rnd (fieldX w) (fieldNN w))
  | 0xD#4 => .instr (.drw (fieldX w) (fieldY w) (fieldN w))
  | 0xE#4 => decodeGroupE w
  | _ => decodeGroupF w

/-- Why a byte sequence gives no instruction. -/
inductive DecodeError where
  /-- Fewer than two bytes: every instruction is exactly two (R70). -/
  | tooShort
  /-- The word is undefined (R76); the machine executes it as a no-operation (R77). -/
  | undefinedWord (g : UndefinedGroup)
  deriving DecidableEq, Repr

/-- Decode the instruction at the head of a byte sequence, with the bytes after it. Total on any bytes. -/
def decodeBytes : List Byte → Except DecodeError (Instr × List Byte)
  | hi :: lo :: rest =>
    match decode (wordOfBytes hi lo) with
    | .instr i => .ok (i, rest)
    | .undefined g => .error (.undefinedWord g)
  | _ => .error .tooShort

/-! ### The encoder (R90) -/

/-- Place operands at their fields (R90): one formula per format. Defined for every list; the last line is met by
no list of the format's length. -/
def Format.place : Format → Nat → List Nat → Nat
  | .addr, code, [nnn] => code + nnn
  | .regImm, code, [x, nn] => code + x * 256 + nn
  | .regReg, code, [x, y] => code + x * 256 + y * 16
  | .regRegN, code, [x, y, n] => code + x * 256 + y * 16 + n
  | .regSel, code, [x] => code + x * 256
  | _, code, _ => code

/-- The word of a row with given operands (R90). -/
def Op.word (o : Op) (operands : List Nat) : Word :=
  BitVec.ofNat 16 (o.format.place o.code.toNat operands)

/-- The word of an instruction (R90): its canonical word (R80). -/
def encode (i : Instr) : Word := i.op.word i.operands

/-- The bytes of an instruction in memory: `word / 256` then `word % 256` (R90). -/
def encodeBytes (i : Instr) : List Byte := bytesOfWord (encode i)

/-! ### The host's view -/

/-- The instruction the decoder reads from an instruction whose bits are `w`, the first `nbits` of them given and
the rest 0: the word is laid out in memory order and given to `decodeBytes`. -/
def decodeTableWord (nbits w : Nat) : Option Instr :=
  match decodeBytes (bytesOfWord (BitVec.ofNat 16 (w % 2 ^ nbits))) with
  | .ok (i, _) => some i
  | .error _ => none

end Sys2Proof
end

