-- ==== Sys2Proof/Machine/State.lean ====
section
/-!
DEFINITION. The State Model (rule R20) as plain data, the fault causes (R211), the host effects (R177), what a step
returns (R100), and the state right after construction.
-/

namespace Sys2Proof.Machine

/-- The causes of R211, each with the value it records.
Raised by a step into the latch `State.fault` (R39, R214): raising is a NEXT state, so `step` never answers
`Host.Outcome.fault` (log entry 1). -/
inductive Fault where
  /-- Code 1. Raised by `RET` with an empty stack; records pc0. Safe: the spec says "fatal" (R116, R211). -/
  | stackUnderflow (pc0 : Word)
  /-- Code 2. Raised by `BCD`, `STM`, `LDM` when an accessed address exceeds 4095; records the lowest such address.
  Safe: the spec's decision D14 stops where the original software is unchecked. -/
  | memOutOfBounds (addr : Nat)
  /-- Code 3. Raised by the fetch when pc exceeds 4094; records pc. Safe: as code 2, decision D15. -/
  | fetchOutOfBounds (pc : Word)
  /-- Code 4. Raised by `CALL` only where a stack limit is set; records pc0. Never with `Config.stackLimit = none`.
  Safe: decision D18. -/
  | stackOverflow (pc0 : Word)
  deriving DecidableEq, Repr

/-- The reasons a step or a call of the host has no meaning. Every instruction has its meaning, so no step raises one. -/
inductive Refusal where
  /-- Raised by an arm of `exec` whose instruction has no meaning yet: none is left. Safe: the machine stops. -/
  | notModelled (mnemonic : String)
  /-- Raised by `hostedCall`, never by a step: the host passes a register that is not the one of the pending `AwaitKey`.
  The spec says nothing of such a host (R181; 93_implementation_defined.md U11: "if modelled, refuse"). Safe: the call
  has no meaning. Log entry 37. -/
  | keyForAnotherRegister (x : RegIdx)
  deriving DecidableEq, Repr

/-- The two key-query selectors (R177, conflict C2). -/
inductive KeySelector where
  /-- Low byte 0x9E. -/
  | ifPressed
  /-- Low byte 0xA1. -/
  | ifNotPressed
  deriving DecidableEq, Repr

/-- A Host Effect (R177): register INDICES, not values. -/
inductive HostEffect where
  | none
  | clearScreen
  | drawSprite (x y : RegIdx) (height : Nibble)
  | keyConditional (x : RegIdx) (selector : KeySelector)
  | awaitKey (x : RegIdx)
  deriving DecidableEq, Repr

/-- What a call of `step()` returns (R100). -/
inductive StepReturn where
  | ok (effect : HostEffect)
  | fault (cause : Fault)
  deriving DecidableEq, Repr

/-- The memory: (address, byte) pairs in one canonical form, see `Memory.wf` in Machine/Ops.lean. -/
abbrev Memory := List Host.Cell

/-- The State Model (R20), and two fields of the model's own, `ret` and `draws`. -/
structure State where
  /-- V[0] .. V[15] (R23). -/
  V : Vector Byte 16
  /-- The index register (R40). -/
  I : Word
  /-- The program counter (R28): between steps, the address of the next instruction to fetch. -/
  pc : Word
  /-- The 4096 cells (R44, R50). -/
  mem : Memory
  /-- The call stack (R41), top first. -/
  stack : List Word
  /-- The delay timer (R34). -/
  dt : Byte
  /-- The sound timer (R35). -/
  st : Byte
  /-- True only while awaiting a key (R37). -/
  halted : Bool
  /-- SHIFT_QUIRK, fixed at construction (R38). -/
  shiftQuirk : Bool
  /-- INDEX_QUIRK, fixed at construction (R38). -/
  indexQuirk : Bool
  /-- The fault latch (R39). -/
  fault : Option Fault
  /-- The MODEL's own: what the last step returned (R45: transient, replaced by the next step). Log entry 2. -/
  ret : StepReturn
  /-- The MODEL's own: how many free inputs have been consumed. Log entry 3. -/
  draws : Nat
  deriving DecidableEq, Repr

/-- The state right after `construct` with an empty program (R240, R241). The spec gives the quirk flags no default
(N27): here both are false, DESIGN CHOICE, log entry 4; `Machine.construct` takes them as arguments.
V and I are 0 by the spec's decision D19, log entry 5. -/
def State.reset : State where
  V := Vector.replicate 16 0
  I := 0
  pc := 512
  mem := []
  stack := []
  dt := 0
  st := 0
  halted := false
  shiftQuirk := false
  indexQuirk := false
  fault := none
  ret := .ok .none
  draws := 0

/-- What a step of this machine answers. -/
abbrev Result := Host.Outcome State Fault Refusal

end Sys2Proof.Machine
end

