-- ==== Sys2Proof/Machine/Ops.lean ====
section
/-!
DEFINITION. The named operations over memory, registers, pc and stack, the two ways a step completes, and taking a
fault. There is no return from a fault beside it: no handler ever runs (rule R216).
-/

namespace Sys2Proof.Machine

/-! ### Memory (R50, R56) -/

/-- What an unlisted address reads as: the construction contents of an empty program (R56), the font table at 0..79 and
0 elsewhere. Log entry 32. -/
def unlistedByte (a : Nat) : Byte := Config.font.getD a 0

/-- The byte of the cell at `a`. Only addresses 0..4095 have a cell; every access is checked before it (R51, R52). -/
def Memory.read : Memory → Nat → Byte
  | [], a => unlistedByte a
  | (b, v) :: m, a => if b = a then v else Memory.read m a

/-- Put a cell at its place in a list that rises by address. -/
def insertCell (a : Nat) (v : Byte) : List Host.Cell → List Host.Cell
  | [] => [(a, v)]
  | c :: m => if a < c.1 then (a, v) :: c :: m else c :: insertCell a v m

/-- Store a byte (R55). The canonical form is kept: a byte equal to what the unlisted address reads as is not listed.
An address above 4095 has no cell, and nothing is stored. -/
def Memory.write (m : Memory) (a : Nat) (v : Byte) : Memory :=
  if Config.memSize ≤ a then m
  else if v = unlistedByte a then m.filter (fun c => decide (c.1 ≠ a))
  else insertCell a v (m.filter (fun c => decide (c.1 ≠ a)))

/-- Store bytes at consecutive addresses, ascending (R153, R154, R240). -/
def Memory.writeRun (m : Memory) (a : Nat) : List Byte → Memory
  | [] => m
  | v :: vs => Memory.writeRun (Memory.write m a v) (a + 1) vs

/-- The canonical form: addresses strictly rising, each below 4096, no entry equal to what it reads as unlisted. -/
abbrev Memory.wf (m : Memory) : Prop :=
  m.Pairwise (fun c d => c.1 < d.1) ∧ ∀ c ∈ m, c.1 < Config.memSize ∧ c.2 ≠ unlistedByte c.1

/-! ### General registers (R23) -/

/-- `V[i]` (R10). -/
def State.getV (s : State) (i : RegIdx) : Byte := s.V[i.val]'i.isLt

/-- `V[i] <- v` (R10). -/
def State.setV (s : State) (i : RegIdx) (v : Byte) : State := { s with V := s.V.set i.val v i.isLt }

/-! ### Program counter (R28, R101) -/

/-- The fetch phase's advance: `pc <- (pc0 + 2) mod 65536` (R100, R101). -/
def State.advance (s : State) : State := { s with pc := s.pc + 2 }

/-- `pc <- target` (R10). -/
def State.jump (s : State) (target : Word) : State := { s with pc := target }

/-- The skip of R120 to R123, R173, R174: a further 2 if the condition holds. `s` has its pc already advanced. -/
def State.skipIf (s : State) (c : Bool) : State := if c then { s with pc := s.pc + 2 } else s

/-! ### Free inputs (R7, R100) -/

/-- Count one consumed free input (log entry 3). -/
def State.consume (s : State) : State := { s with draws := s.draws + 1 }

/-! ### How a step ends -/

/-- `return Ok(None)` (R100). -/
def complete (s : State) : Result := .next { s with ret := .ok .none }

/-- `emit E` (R10): the step returns `Ok(E)`. -/
def emit (e : HostEffect) (s : State) : Result := .next { s with ret := .ok e }

/-- `raise <Fault>(info)` (R10, R214). `s` is the state BEFORE the step: every assignment of the step is discarded, the
latch is set to the cause with its recorded value, and the step returns `Fault(cause)`. -/
def raise (f : Fault) (s : State) : Result := .next { s with fault := some f, ret := .fault f }

/-- The numeric code of a cause (R211, decision D17; log entry 13). -/
def faultCode : Fault → Nat
  | .stackUnderflow _ => 1
  | .memOutOfBounds _ => 2
  | .fetchOutOfBounds _ => 3
  | .stackOverflow _ => 4

end Sys2Proof.Machine
end

