-- ==== Sys2Proof/Machine/Operands.lean ====
section
/-!
DEFINITION. The operand forms: the address field, the shift source, and the run of addresses `I .. I + k` of the
memory instructions with its bounds check (rules R52, R72, R139, R153 to R156).
-/

namespace Sys2Proof.Machine

/-- `zext_16(nnn)` (R72). -/
def addrOperand (nnn : Addr12) : Word := nnn.setWidth 16

/-- `zext_16(v)` of an 8-bit value (R119, R151, R152). -/
def zext16 (v : Byte) : Word := v.setWidth 16

/-- The source of a shift: `V[x]` if SHIFT_QUIRK, else `V[y]` (R139, R141). -/
def State.shiftSource (s : State) (x y : RegIdx) : Byte :=
  if s.shiftQuirk then s.getV x else s.getV y

/-- Do the addresses `I .. I + k` all exist? Compared as natural numbers, without wrap (R52). -/
def State.runFits (s : State) (k : Nat) : Bool := decide (s.I.toNat + k ≤ 4095)

/-- The address a run that does not fit records: the lowest offending one, `max(I, 4096)` (R156). -/
def State.runFaultAddr (s : State) : Nat := max s.I.toNat 4096

/-- Run `k` on the state before the step if the addresses `I .. I + last` exist, else raise `MemOutOfBounds`, before any
access (R52). -/
def withRun (last : Nat) (s : State) (k : State → Result) : Result :=
  if s.runFits last then k s else raise (.memOutOfBounds s.runFaultAddr) s

/-- `V[0] .. V[x]`, in order: the bytes `STM x` stores (R154). -/
def State.regsUpTo (s : State) (x : RegIdx) : List Byte := s.V.toList.take (x.val + 1)

/-- The register file after `V[j] <- mem[I + j]` for j in 0 .. x (R155); the I of before the step for every j. -/
def State.loadedRegs (s : State) (x : RegIdx) : Vector Byte 16 :=
  Vector.ofFn fun j => if j ≤ x then Memory.read s.mem (s.I.toNat + j.val) else s.getV j

/-- `if not INDEX_QUIRK then I <- (I + x + 1) mod 65536` (R154, R155). -/
def State.bulkIndex (s : State) (x : RegIdx) : State :=
  if s.indexQuirk then s else { s with I := s.I + BitVec.ofNat 16 (x.val + 1) }

/-- The decimal digits `BCD` stores: hundreds, tens, ones (R153). -/
def bcdDigits (v : Byte) : List Byte :=
  [BitVec.ofNat 8 (v.toNat / 100), BitVec.ofNat 8 (v.toNat / 10 % 10), BitVec.ofNat 8 (v.toNat % 10)]

end Sys2Proof.Machine
end

