-- ==== Sys2Proof/Machine/Flags.lean ====
section
/-!
DEFINITION. The values the six flag-writing instructions put in V[15] (rules R32, R130), and the order of their two
writes (R33, R143).
-/

namespace Sys2Proof.Machine

/-- Carry of an addition: 1 iff a + b > 255 (R130, R137). -/
def carryFlag (a b : Byte) : Byte := if 255 < a.toNat + b.toNat then 1 else 0

/-- Not-borrow of `a - b`: 1 iff a >= b (R130, R138, R140). -/
def notBorrowFlag (a b : Byte) : Byte := if b.toNat ≤ a.toNat then 1 else 0

/-- The bit a right shift moves out: bit 0 (R130, R139). -/
def lowBitFlag (v : Byte) : Byte := v &&& 1

/-- The bit a left shift moves out: bit 7 (R130, R141). -/
def highBitFlag (v : Byte) : Byte := v >>> 7

/-- The flag of `ADDI`: 1 iff the new I is 4096 or more (R151). -/
def indexFlag (i : Word) : Byte := if 4096 ≤ i.toNat then 1 else 0

/-- V[15] first, V[x] second (R33, decision D21; log entry 15): with x = 15 the result overwrites the flag. Both values
are computed from the operands as they were before the step. -/
def State.setFlagged (s : State) (x : RegIdx) (flag result : Byte) : State := (s.setV 15 flag).setV x result

end Sys2Proof.Machine
end

