-- ==== Sys2Proof/Machine/Control.lean ====
section
/-!
DEFINITION. Control transfer: RET JP CALL JPV SE SNE SER SNER (spec/41_control_flow.md).
In every meaning `s` is the state before the step, so `s.pc` is pc0 (rule R11).
-/

namespace Sys2Proof.Machine

/-- `RET` (R116). -/
def execRet (s : State) : Result :=
  match s.stack with
  | [] => raise (.stackUnderflow s.pc) s
  | a :: rest => complete { s with pc := a, stack := rest }

/-- `JP nnn` (R117). -/
def execJp (nnn : Addr12) (s : State) : Result := complete (s.jump (addrOperand nnn))

/-- `CALL nnn` under a stack limit (R42, R118): the return address is pc0 + 2. -/
def callWithLimit (limit : Option Nat) (nnn : Addr12) (s : State) : Result :=
  if limit = some s.stack.length then raise (.stackOverflow s.pc) s
  else complete { s with stack := s.advance.pc :: s.stack, pc := addrOperand nnn }

/-- `CALL nnn` (R118). -/
def execCall (nnn : Addr12) (s : State) : Result := callWithLimit Config.stackLimit nnn s

/-- `JPV nnn` (R119): the sum is not reduced to 12 bits. -/
def execJpv (nnn : Addr12) (s : State) : Result := complete (s.jump (zext16 (s.getV 0) + addrOperand nnn))

/-- The skips on a condition over registers. -/
def skipWhen (c : Bool) (s : State) : Result := complete (s.advance.skipIf c)

/-- `SE x,nn` (R120). -/
def execSe (x : RegIdx) (nn : Byte) (s : State) : Result := skipWhen (decide (s.getV x = nn)) s

/-- `SNE x,nn` (R121). -/
def execSne (x : RegIdx) (nn : Byte) (s : State) : Result := skipWhen (decide (s.getV x ≠ nn)) s

/-- `SER x,y` (R122). -/
def execSer (x y : RegIdx) (s : State) : Result := skipWhen (decide (s.getV x = s.getV y)) s

/-- `SNER x,y` (R123). -/
def execSner (x y : RegIdx) (s : State) : Result := skipWhen (decide (s.getV x ≠ s.getV y)) s

end Sys2Proof.Machine
end

