-- ==== Sys2Proof/Machine/HostEffects.lean ====
section
/-!
DEFINITION. Host-effect instructions: CLS DRW SKP SKNP WKEY (spec/45_host_effects.md), and NOP, the meaning of every
undefined word (rule R103). `deliver_key` is a primitive, in Machine/Driver.lean.
-/

namespace Sys2Proof.Machine

/-- The numeric form of a selector, the nibble f4 of its instruction (R177, decision D24). -/
def selectorNibble : KeySelector → Nibble
  | .ifPressed => 0xE
  | .ifNotPressed => 0x1

/-- `CLS` (R170): "clear request, no state change here". -/
def execCls (s : State) : Result := emit .clearScreen s.advance

/-- `DRW x,y,n` (R171): "draw request, no state change here"; no register, memory or V[15] is touched (R157). -/
def execDrw (x y : RegIdx) (n : Nibble) (s : State) : Result := emit (.drawSprite x y n) s.advance

/-- Does the host's answer satisfy the selector (R172)? -/
def answerSatisfies : KeySelector → Bool → Bool
  | .ifPressed, pressed => pressed
  | .ifNotPressed, pressed => !pressed

/-- A key query with the host's answer as an argument (R172 to R174). -/
def keyQueryWith (pressed : Bool) (x : RegIdx) (sel : KeySelector) (s : State) : Result :=
  emit (.keyConditional x sel) (s.consume.advance.skipIf (answerSatisfies sel pressed))

/-- `SKP x` (R173): the answer is a free value (log entry 3). -/
def execSkp (x : RegIdx) (s : State) : Result := keyQueryWith (Config.keyPressed s.draws) x .ifPressed s

/-- `SKNP x` (R174): the answer is a free value (log entry 3). -/
def execSknp (x : RegIdx) (s : State) : Result := keyQueryWith (Config.keyPressed s.draws) x .ifNotPressed s

/-- `WKEY x` (R175): V[x] is written later, by `deliver_key`. -/
def execWkey (x : RegIdx) (s : State) : Result := emit (.awaitKey x) { s.advance with halted := true }

/-- `NOP` (R103): pc advances by 2 and nothing else happens, for an undefined word of any group. -/
def execNop (s : State) : Result := complete s.advance

end Sys2Proof.Machine
end

