-- ==== Sys2Proof/Machine/IndexMemory.lean ====
section
/-!
DEFINITION. Index register and memory: LDI ADDI FONT BCD STM LDM (spec/43_index_memory.md).
In every meaning `s` is the state before the step.
-/

namespace Sys2Proof.Machine

/-- `LDI nnn` (R150). -/
def execLdi (nnn : Addr12) (s : State) : Result := complete { s.advance with I := addrOperand nnn }

/-- `ADDI x` with the new I as an argument: I first, then the flag, which tests the value after the 16-bit wrap. -/
def writeIndexFlagged (i : Word) (s : State) : Result :=
  complete ({ s.advance with I := i }.setV 15 (indexFlag i))

/-- `ADDI x` (R151). -/
def execAddi (x : RegIdx) (s : State) : Result := writeIndexFlagged (s.I + zext16 (s.getV x)) s

/-- `FONT x` (R152): the same formula for all 256 values, no masking (decision D29). -/
def execFont (x : RegIdx) (s : State) : Result := complete { s.advance with I := zext16 (s.getV x) * 5 }

/-- `BCD x` (R153): I is unchanged under both quirk settings. -/
def execBcd (x : RegIdx) (s : State) : Result :=
  withRun 2 s fun s =>
    complete { s.advance with mem := Memory.writeRun s.mem s.I.toNat (bcdDigits (s.getV x)) }

/-- `STM x` (R154). -/
def execStm (x : RegIdx) (s : State) : Result :=
  withRun x.val s fun s =>
    complete ({ s.advance with mem := Memory.writeRun s.mem s.I.toNat (s.regsUpTo x) }.bulkIndex x)

/-- `LDM x` (R155). -/
def execLdm (x : RegIdx) (s : State) : Result :=
  withRun x.val s fun s =>
    complete ({ s.advance with V := s.loadedRegs x }.bulkIndex x)

end Sys2Proof.Machine
end

