-- ==== Sys2Proof/Machine/LoadAlu.lean ====
section
/-!
DEFINITION. Load, arithmetic, logic, shift and random: LD ADD MOV OR AND XOR ADDR SUB SHR SUBN SHL RND
(spec/42_load_alu_random.md). In every meaning `s` is the state before the step.
-/

namespace Sys2Proof.Machine

/-- An instruction whose one result goes to V[x] and that writes no flag. -/
def writeReg (x : RegIdx) (v : Byte) (s : State) : Result := complete (s.advance.setV x v)

/-- An instruction that writes a flag to V[15], then its result to V[x] (R143). -/
def writeFlagged (x : RegIdx) (flag result : Byte) (s : State) : Result :=
  complete (s.advance.setFlagged x flag result)

/-- `LD x,nn` (R131). -/
def execLd (x : RegIdx) (nn : Byte) (s : State) : Result := writeReg x nn s

/-- `ADD x,nn` (R132): no flag, even on overflow. -/
def execAdd (x : RegIdx) (nn : Byte) (s : State) : Result := writeReg x (s.getV x + nn) s

/-- `MOV x,y` (R133). -/
def execMov (x y : RegIdx) (s : State) : Result := writeReg x (s.getV y) s

/-- `OR x,y` (R134): V[15] is not written (conflict C3). -/
def execOr (x y : RegIdx) (s : State) : Result := writeReg x (s.getV x ||| s.getV y) s

/-- `AND x,y` (R135). -/
def execAnd (x y : RegIdx) (s : State) : Result := writeReg x (s.getV x &&& s.getV y) s

/-- `XOR x,y` (R136). -/
def execXor (x y : RegIdx) (s : State) : Result := writeReg x (s.getV x ^^^ s.getV y) s

/-- `ADDR x,y` (R137). -/
def execAddr (x y : RegIdx) (s : State) : Result :=
  writeFlagged x (carryFlag (s.getV x) (s.getV y)) (s.getV x + s.getV y) s

/-- `SUB x,y` (R138). -/
def execSub (x y : RegIdx) (s : State) : Result :=
  writeFlagged x (notBorrowFlag (s.getV x) (s.getV y)) (s.getV x - s.getV y) s

/-- `SHR x,y` (R139). -/
def execShr (x y : RegIdx) (s : State) : Result :=
  writeFlagged x (lowBitFlag (s.shiftSource x y)) (s.shiftSource x y >>> 1) s

/-- `SUBN x,y` (R140). -/
def execSubn (x y : RegIdx) (s : State) : Result :=
  writeFlagged x (notBorrowFlag (s.getV y) (s.getV x)) (s.getV y - s.getV x) s

/-- `SHL x,y` (R141, decision D41). -/
def execShl (x y : RegIdx) (s : State) : Result :=
  writeFlagged x (highBitFlag (s.shiftSource x y)) (s.shiftSource x y <<< 1) s

/-- `RND x,nn` with the drawn byte as an argument (R142). -/
def rndWith (draw : Byte) (x : RegIdx) (nn : Byte) (s : State) : Result := writeReg x (draw &&& nn) s.consume

/-- `RND x,nn` (R142): the byte is a free value (log entry 3). -/
def execRnd (x : RegIdx) (nn : Byte) (s : State) : Result := rndWith (Config.randomByte s.draws) x nn s

end Sys2Proof.Machine
end

