-- ==== Sys2Proof/Machine/Timers.lean ====
section
/-!
DEFINITION. Timer instructions: GDT SDT SST (spec/44_timers.md). `tick()` is a primitive, in Machine/Driver.lean.
-/

namespace Sys2Proof.Machine

/-- `GDT x` (R160). -/
def execGdt (x : RegIdx) (s : State) : Result := writeReg x s.dt s

/-- `SDT x` (R161). -/
def execSdt (x : RegIdx) (s : State) : Result := complete { s.advance with dt := s.getV x }

/-- `SST x` (R162). -/
def execSst (x : RegIdx) (s : State) : Result := complete { s.advance with st := s.getV x }

end Sys2Proof.Machine
end

