-- ==== Sys2Proof/Machine/Cycle.lean ====
section
/-!
DEFINITION. The step cycle (rules R100 to R109): the gates, the fetch, decode and execute; and placing an instruction
where the cycle fetches its next one.
-/

namespace Sys2Proof.Machine

/-- The word at pc: `mem[pc] * 256 + mem[pc + 1]` (R51, R53). -/
def State.fetchedWord (s : State) : Word :=
  wordOfBytes (Memory.read s.mem s.pc.toNat) (Memory.read s.mem (s.pc.toNat + 1))

/-- Can the fetch read its two bytes (R51)? -/
def State.fetchFits (s : State) : Bool := decide (s.pc.toNat ≤ 4094)

/-- Neither gate of R100 is closed. -/
def State.running (s : State) : Bool := s.fault.isNone && !s.halted

/-- Decode and execute one word. An undefined word executes as NOP, whatever its group (R77, R103). -/
def runWord (w : Word) (s : State) : Result :=
  match decode w with
  | .instr i => exec i s
  | .undefined _ => execNop s

/-- `step()` (R100), its checks in the order of R109: fault gate, halted gate, fetch bounds, the instruction. -/
def cycle (s : State) : Result :=
  if s.fault.isSome then complete s
  else if s.halted then complete s
  else if s.fetchFits then runWord s.fetchedWord s
  else raise (.fetchOutOfBounds s.pc) s

/-- The state with word `w` stored where the cycle fetches next, and with what that fetch needs: both gates open, and a
pc that can fetch (512 where it cannot). Log entry 7. -/
def placeWord (w : Word) (s : State) : State :=
  let pc := if s.fetchFits then s.pc else 512
  { s with pc := pc, halted := false, fault := none, mem := Memory.writeRun s.mem pc.toNat (bytesOfWord w) }

end Sys2Proof.Machine
end

