-- ==== Sys2Proof/Machine/Step.lean ====
section
/-!
DEFINITION. One step of the machine: the primitive `step()` of rule R100.
-/

namespace Sys2Proof.Machine

/-- `step()` (R100). What it returns stands in `State.ret`. -/
def step (s : State) : Host.Outcome State Fault Refusal := cycle s

/-- The state with an instruction, whose bits are `w` and the first `nbits` of them given, stored where `step` fetches
its next instruction. Log entry 7. -/
def State.withFetchWord (s : State) (nbits w : Nat) : State := placeWord (BitVec.ofNat 16 (w % 2 ^ nbits)) s

end Sys2Proof.Machine
end

