-- ==== Sys2Proof/Machine/Codec.lean ====
section
/-!
DEFINITION. The opcode codec (spec/46_codec.md): `assemble` and `disassemble`, pure functions over the opcode table that
touch no state (rules R3, R225). Texts are lists of characters inside, strings at the two functions.
-/

namespace Sys2Proof.Machine

/-! ### Lines and pieces of text -/

/-- Split a text at every occurrence of a character: n occurrences give n + 1 pieces (R186, R189). -/
def splitAt (c : Char) : List Char → List (List Char)
  | [] => [[]]
  | d :: ds =>
    if d = c then [] :: splitAt c ds
    else
      match splitAt c ds with
      | [] => [[d]]
      | p :: ps => (d :: p) :: ps

/-- A space or a tab (R187 to R189). -/
def isBlank (c : Char) : Bool := c == ' ' || c == '\t'

/-- Remove leading spaces and tabs. -/
def trimLeft (t : List Char) : List Char := t.dropWhile isBlank

/-- Remove leading and trailing spaces and tabs (R187). -/
def trim (t : List Char) : List Char := (trimLeft (trimLeft t).reverse).reverse

/-- Remove a carriage return at the end of a line (R186). -/
def dropCr (t : List Char) : List Char :=
  match t.reverse with
  | '\r' :: rest => rest.reverse
  | _ => t

/-- The lines of a text, each without its carriage return and trimmed, numbered from 1 with blank lines counted
(R186, R187). -/
def numberedLines (text : List Char) : List (Nat × List Char) :=
  ((splitAt '\n' text).map (fun l => trim (dropCr l))).zipIdx 1 |>.map fun p => (p.2, p.1)

/-- The mnemonic of a trimmed line: the longest prefix without a space or tab (R188). -/
def lineMnemonic (line : List Char) : List Char := line.takeWhile (fun c => !isBlank c)

/-- The operand text of a trimmed line: the rest, trimmed (R188). -/
def lineOperandText (line : List Char) : List Char := trim (line.dropWhile (fun c => !isBlank c))

/-! ### Operands (R189) -/

/-- The value of an ASCII digit. -/
def digitValue? (c : Char) : Option Nat :=
  if '0' ≤ c ∧ c ≤ '9' then some (c.toNat - '0'.toNat) else none

/-- Read digits as a decimal number, most significant first; `acc` is the number read so far. -/
def readDigits : Nat → List Char → Option Nat
  | acc, [] => some acc
  | acc, c :: cs =>
    match digitValue? c with
    | some d => readDigits (acc * 10 + d) cs
    | none => none

/-- A piece between commas, trimmed: a non-empty string of ASCII digits of any length, leading zeros allowed. -/
def parseOperand (piece : List Char) : Option Nat :=
  match trim piece with
  | [] => none
  | t => readDigits 0 t

/-- All pieces, or none if one does not parse. -/
def parsePieces : List (List Char) → Option (List Nat)
  | [] => some []
  | p :: ps =>
    match parseOperand p, parsePieces ps with
    | some v, some vs => some (v :: vs)
    | _, _ => none

/-- The operand list of an operand text; the empty text is the empty list. -/
def parseOperands (t : List Char) : Option (List Nat) :=
  match t with
  | [] => some []
  | _ => parsePieces (splitAt ',' t)

/-! ### assemble (R185 to R195) -/

/-- The kinds of failure of a line (R194). -/
inductive FailureKind where
  /-- An operand is not a decimal natural number (R189). -/
  | operandParse
  /-- The number of operands is not the mnemonic's (R190). -/
  | operandCount
  /-- An operand does not fit its field (R191). -/
  | operandRange
  deriving DecidableEq, Repr

/-- A failure record (R194): line number, mnemonic, kind. -/
structure Failure where
  line : Nat
  mnemonic : String
  kind : FailureKind
  deriving DecidableEq, Repr

/-- The word of one non-blank trimmed line, its checks in the order of R193: an unknown mnemonic yields the null opcode
and its operand text is not examined (R192). -/
def assembleLine (line : List Char) : Except FailureKind Word :=
  match Op.ofMnemonic? (String.ofList (lineMnemonic line)) with
  | none => .ok 0
  | some o =>
    match parseOperands (lineOperandText line) with
    | none => .error .operandParse
    | some vs =>
      match o.format.check vs with
      | none => .ok (o.word vs)
      | some .operandRange => .error .operandRange
      | some _ => .error .operandCount

/-- The bytes of all lines, or the failures of all failing lines in line order (R194). Blank lines yield nothing
(R187). -/
def assembleLines : List (Nat × List Char) → Except (List Failure) (List Byte)
  | [] => .ok []
  | (_, []) :: rest => assembleLines rest
  | (n, line) :: rest =>
    match assembleLine line, assembleLines rest with
    | .ok w, .ok bs => .ok (bytesOfWord w ++ bs)
    | .ok _, .error fs => .error fs
    | .error k, .ok _ => .error [⟨n, String.ofList (lineMnemonic line), k⟩]
    | .error k, .error fs => .error (⟨n, String.ofList (lineMnemonic line), k⟩ :: fs)

/-- `assemble(text)` (R185). -/
def assemble (text : String) : Except (List Failure) (List Byte) :=
  assembleLines (numberedLines text.toList)

/-! ### disassemble (R196 to R201) -/

/-- The words of a byte sequence; a last single byte is ignored (R197). -/
def wordsOfBytes : List Byte → List Word
  | hi :: lo :: rest => wordOfBytes hi lo :: wordsOfBytes rest
  | _ => []

/-- The row whose canonical words include `w` (R198), by the codec's masks. -/
def opOfWord? (w : Word) : Option Op := Op.all.find? (fun o => w &&& o.codecMask == o.code)

/-- The operands of a word of a format, in the order of R74. -/
def formatFields (f : Format) (w : Word) : List Nat :=
  match f with
  | .fixed => []
  | .addr => [(fieldNNN w).toNat]
  | .regImm => [(fieldX w).val, (fieldNN w).toNat]
  | .regReg => [(fieldX w).val, (fieldY w).val]
  | .regRegN => [(fieldX w).val, (fieldY w).val, (fieldN w).toNat]
  | .regSel => [(fieldX w).val]

/-- The character of a digit 0..9. -/
def digitChar (d : Nat) : Char := Char.ofNat ('0'.toNat + d)

/-- Put the digits of `n` before `acc`; `fuel` bounds how many. -/
def decimalWith : Nat → Nat → List Char → List Char
  | 0, _, acc => acc
  | fuel + 1, n, acc =>
    if n < 10 then digitChar n :: acc else decimalWith fuel (n / 10) (digitChar (n % 10) :: acc)

/-- A number in decimal without leading zeros; 0 prints as `0` (R199). -/
def decimal (n : Nat) : List Char := decimalWith (n + 1) n []

/-- Operands separated by single commas (R199). -/
def printOperands (vs : List Nat) : List Char := List.intercalate [','] (vs.map decimal)

/-- A mnemonic and its operands: one space between them if there are operands (R199). -/
def printLine (o : Op) (vs : List Nat) : List Char :=
  match vs with
  | [] => o.mnemonic.toList
  | _ => o.mnemonic.toList ++ ' ' :: printOperands vs

/-- The line of a word (R199); an unrecognised word gives an empty line (R200). -/
def wordLine (w : Word) : List Char :=
  match opOfWord? w with
  | some o => printLine o (formatFields o.format w)
  | none => []

/-- `disassemble(bytes)` (R196): the lines joined by single line feeds, none after the last (R201). -/
def disassemble (bytes : List Byte) : String :=
  String.ofList (List.intercalate ['\n'] ((wordsOfBytes bytes).map wordLine))

/-- The line the codec prints for an instruction (R199). -/
def instrLine (i : Instr) : List Char := printLine i.op i.operands

end Sys2Proof.Machine
end

