-- ==== Sys2Proof/Machine/Driver.lean ====
section
/-!
DEFINITION. The other primitives the driver calls: `construct` (rule R240), `tick()` (R163), `deliver_key` (R176), any
sequence of calls (R247), and a host that keeps its duties (R181). The core's own `step()` is in Machine/Step.lean.
-/

namespace Sys2Proof.Machine

/-- `construct(SHIFT_QUIRK, INDEX_QUIRK, PROGRAM)` (R240, R241): the font, the program at 512, every other field as
`State.reset` has it. A program longer than 3584 bytes is refused: no instance exists (R242). -/
def construct (shiftQuirk indexQuirk : Bool) (program : List Byte) : Option State :=
  if program.length ≤ Config.maxProgram then
    some { State.reset with
      shiftQuirk := shiftQuirk
      indexQuirk := indexQuirk
      mem := Memory.writeRun State.reset.mem Config.progBase program }
  else none

/-- One timer's decrement, floored at 0 (R36, R163). -/
def countDown (v : Byte) : Byte := if v = 0 then 0 else v - 1

/-- `tick()` (R163): not gated by `halted`; inert once a fault is set (R215). It returns nothing. -/
def tick (s : State) : State :=
  if s.fault.isSome then s else { s with dt := countDown s.dt, st := countDown s.st }

/-- `deliver_key(x, k)` (R176): guarded by `halted`; inert once a fault is set (R215). -/
def deliverKey (x : RegIdx) (k : Byte) (s : State) : State :=
  if s.fault.isSome then s
  else if s.halted then { s.setV x k with halted := false }
  else s

/-- A call the driver makes after `construct` (R3, R247). -/
inductive Call where
  | step
  | tick
  | deliverKey (x : RegIdx) (k : Byte)
  deriving DecidableEq, Repr

/-- One call. -/
def applyCall (c : Call) (s : State) : Result :=
  match c with
  | .step => step s
  | .tick => .next (tick s)
  | .deliverKey x k => .next (deliverKey x k s)

/-- Any number of calls in any order (R247), one at a time (R22). -/
def runCalls : List Call → State → Result
  | [], s => .next s
  | c :: cs, s =>
    match applyCall c s with
    | .next t => runCalls cs t
    | .fault r => .fault r
    | .refused r => .refused r

/-! ### A host that keeps its duties (R181) -/

/-- The core beside what its host must remember: the register of the last `AwaitKey`, until its key is delivered. The core
itself does not keep it (R46, R176). Log entry 37. -/
structure Hosted where
  core : State
  pending : Option RegIdx
  deriving DecidableEq, Repr

/-- What the host holds pending after a step that left the core as `t`: the register of an `AwaitKey` it has just been
given, else what it held. -/
def pendingAfterStep (t : State) (pending : Option RegIdx) : Option RegIdx :=
  match t.ret with
  | .ok (.awaitKey x) => some x
  | _ => pending

/-- May the host deliver a key for register `x`? With an `AwaitKey` pending only for its register (R181); with none
pending the core ignores the call (R176). -/
def deliveryAllowed (x : RegIdx) (pending : Option RegIdx) : Bool :=
  match pending with
  | some y => decide (x = y)
  | none => true

/-- One call of the host: any call, but a delivery for another register than the pending one is refused (R181, U11). -/
def hostedCall (c : Call) (h : Hosted) : Host.Outcome Hosted Fault Refusal :=
  match c with
  | .step =>
    match step h.core with
    | .next t => .next ⟨t, pendingAfterStep t h.pending⟩
    | .fault r => .fault r
    | .refused r => .refused r
  | .tick => .next ⟨tick h.core, h.pending⟩
  | .deliverKey x k =>
    if deliveryAllowed x h.pending then
      .next ⟨deliverKey x k h.core, if (deliverKey x k h.core).halted then h.pending else none⟩
    else .refused (.keyForAnotherRegister x)

/-- Any number of calls of the host, one at a time. -/
def runHosted : List Call → Hosted → Host.Outcome Hosted Fault Refusal
  | [], h => .next h
  | c :: cs, h =>
    match hostedCall c h with
    | .next u => runHosted cs u
    | .fault r => .fault r
    | .refused r => .refused r

/-- Is the list of calls one round of the intended pattern (R247), from `h` and with at most `n` steps: steps and one
`tick()` at its end, each `deliver_key` for the pending `AwaitKey`? -/
def roundFrom : Nat → List Call → Hosted → Bool
  | _, [], _ => false
  | _, .tick :: rest, _ => rest.isEmpty
  | 0, .step :: _, _ => false
  | n + 1, .step :: cs, h =>
    match hostedCall .step h with
    | .next u => roundFrom n cs u
    | _ => false
  | n, .deliverKey x k :: cs, h =>
    match h.pending == some x, hostedCall (.deliverKey x k) h with
    | true, .next u => roundFrom n cs u
    | _, _ => false

/-- One round of the intended pattern (R164, R247), as the spec gives it: up to STEPS_PER_TICK steps, keys delivered where
one is pending, one tick. -/
def intendedRound (calls : List Call) (h : Hosted) : Bool := roundFrom Config.stepsPerTick calls h

/-- The fullest round without a key: STEPS_PER_TICK steps, then one tick. DESIGN CHOICE (log entry 25): R247 allows fewer
steps and inserted deliveries, see `intendedRound`; this is one such round among them. -/
def driverRound : List Call := List.replicate Config.stepsPerTick .step ++ [.tick]

end Sys2Proof.Machine
end

