-- ==== Sys2Proof/Safety.lean ====
section
/-!
DEFINITION. What counts as a safe run and how a run ends (rules R47, R215, R248), in the terms claims use.
-/

namespace Sys2Proof.Machine

/-- The invariant of R47 that the types do not already give: the memory is in canonical form, every stack entry is in
2..4096, and the depth respects the stack limit. -/
def State.Inv (s : State) : Prop :=
  Memory.wf s.mem ∧ (∀ e ∈ s.stack, 2 ≤ e.toNat ∧ e.toNat ≤ 4096) ∧
    ∀ l, Config.stackLimit = some l → s.stack.length ≤ l

/-- A run that has failed (R215, R248): the fault latch is set. -/
def State.failed (s : State) : Prop := s.fault.isSome = true

/-- A run that waits for the host (R180, R248): awaiting a key, not ended. -/
def State.waiting (s : State) : Prop := s.fault = none ∧ s.halted = true

/-- A run that has ended successfully (R248, decision D38; log entry 26): running, and the word at pc is a jump to pc. -/
def State.endedOk (s : State) : Prop :=
  s.running = true ∧ s.fetchFits = true ∧ ∃ nnn : Addr12, decode s.fetchedWord = .instr (.jp nnn) ∧ addrOperand nnn = s.pc

/-- A safe step: it answers a next state whose fault latch is clear. -/
def State.safeStep (s : State) : Prop := ∃ t, step s = .next t ∧ t.fault = none

end Sys2Proof.Machine
end

