-- ==== Sys2Proof/Certificates/Slice0/Obligations.lean ====
section
/-!
DEFINITION. The statements for the provers, `Obligations.<Name> : Prop`, and the predicates they are written in.
Where a statement rests on a decision the spec marks as its own (D<n>) or on a choice of the model (a log entry), its
docstring says so.
-/

namespace Sys2Proof.Claims

open Sys2Proof.Machine

/-- `exec i s` answers a next state whose registers are `regs`, whose pc is pc0 + 2 and whose step returned `Ok(None)`;
every other field is as before. -/
def RegisterResult (i : Instr) (s : State) (regs : RegIdx → Byte) : Prop :=
  ∃ t, exec i s = .next t ∧ (∀ r, t.getV r = regs r) ∧
    t = { s with V := t.V, pc := s.pc + 2, ret := .ok .none }

/-- `exec i s` answers a next state with the result in V[x] and the flag in V[15], the result winning where x = 15. -/
def FlagResult (i : Instr) (s : State) (x : RegIdx) (flag result : Byte) : Prop :=
  RegisterResult i s fun r => if r = x then result else if r = 15 then flag else s.getV r

/-- The outcome `raise f` on `s`: only the latch and the returned value change. -/
def Raises (f : Fault) (s : State) (o : Result) : Prop :=
  o = .next { s with fault := some f, ret := .fault f }

/-- The registers an instruction may write: its named destination, and V[15] where the spec names it (R24, R25). -/
def writtenRegs : Instr → List RegIdx
  | .ld x _ | .add x _ | .rnd x _ | .gdt x => [x]
  | .mov x _ | .or x _ | .and x _ | .xor x _ => [x]
  | .addr x _ | .sub x _ | .shr x _ | .subn x _ | .shl x _ => [15, x]
  | .addi _ => [15]
  | .ldm x => (List.finRange 16).filter (fun r => decide (r ≤ x))
  | _ => []

/-- The addresses an instruction stores to from state `s`: `BCD` three from I, `STM x` x + 1 from I, the others none. -/
def Stores (i : Instr) (s : State) (a : Nat) : Prop :=
  match i with
  | .bcd _ => s.I.toNat ≤ a ∧ a ≤ s.I.toNat + 2
  | .stm x => s.I.toNat ≤ a ∧ a ≤ s.I.toNat + x.val
  | _ => False

/-- The byte an instruction stores at an address from state `s`, if it stores one there (R153, R154). -/
def storedByte (i : Instr) (s : State) (a : Nat) : Option Byte :=
  match i with
  | .bcd x =>
    if a = s.I.toNat then some (BitVec.ofNat 8 ((s.getV x).toNat / 100))
    else if a = s.I.toNat + 1 then some (BitVec.ofNat 8 ((s.getV x).toNat / 10 % 10))
    else if a = s.I.toNat + 2 then some (BitVec.ofNat 8 ((s.getV x).toNat % 10))
    else none
  | .stm x => if s.I.toNat ≤ a ∧ a ≤ s.I.toNat + x.val then some (s.getV (Fin.ofNat 16 (a - s.I.toNat))) else none
  | _ => none

/-- The byte at an address once an instruction has run from state `s`: what it stored there, else what was there. -/
def byteAfter (i : Instr) (s : State) (a : Nat) : Byte := (storedByte i s a).getD (Memory.read s.mem a)

/-- The pc after a step that ran the word `w` from state `s` and raised nothing (R29). -/
def pcAfter (w : Word) (s : State) : Word :=
  match decode w with
  | .instr (.jp nnn) => BitVec.ofNat 16 nnn.toNat
  | .instr (.call nnn) => BitVec.ofNat 16 nnn.toNat
  | .instr .ret => s.stack.headD 0
  | .instr (.jpv nnn) => BitVec.ofNat 16 ((s.getV 0).toNat + nnn.toNat)
  | .instr (.se x nn) => if s.getV x = nn then s.pc + 4 else s.pc + 2
  | .instr (.sne x nn) => if s.getV x = nn then s.pc + 2 else s.pc + 4
  | .instr (.ser x y) => if s.getV x = s.getV y then s.pc + 4 else s.pc + 2
  | .instr (.sner x y) => if s.getV x = s.getV y then s.pc + 2 else s.pc + 4
  | .instr (.skp _) => if Config.keyPressed s.draws then s.pc + 4 else s.pc + 2
  | .instr (.sknp _) => if Config.keyPressed s.draws then s.pc + 2 else s.pc + 4
  | _ => s.pc + 2

/-- When a running step raises `f` (R211, R213). -/
def RaisedWhen (s : State) (f : Fault) : Prop :=
  if 4094 < s.pc.toNat then f = .fetchOutOfBounds s.pc
  else
    match decode s.fetchedWord with
    | .instr .ret => s.stack = [] ∧ f = .stackUnderflow s.pc
    | .instr (.call _) => Config.stackLimit = some s.stack.length ∧ f = .stackOverflow s.pc
    | .instr (.bcd _) => 4095 < s.I.toNat + 2 ∧ f = .memOutOfBounds (max s.I.toNat 4096)
    | .instr (.stm x) => 4095 < s.I.toNat + x.val ∧ f = .memOutOfBounds (max s.I.toNat 4096)
    | .instr (.ldm x) => 4095 < s.I.toNat + x.val ∧ f = .memOutOfBounds (max s.I.toNat 4096)
    | _ => False

/-- An outcome with a change made to its next state. -/
def mapNext (g : State → State) : Result → Result
  | .next t => .next (g t)
  | .fault r => .fault r
  | .refused r => .refused r

/-- The operands of a word, by its row's format, as numbers (R71, R72). -/
def operandsOf (f : Format) (w : Nat) : List Nat :=
  match f with
  | .fixed => []
  | .addr => [w % 4096]
  | .regImm => [w / 256 % 16, w % 256]
  | .regReg => [w / 256 % 16, w / 16 % 16]
  | .regRegN => [w / 256 % 16, w / 16 % 16, w % 16]
  | .regSel => [w / 256 % 16]

/-- Spaces and tabs only. -/
def Blanks (t : List Char) : Prop := ∀ c ∈ t, c = ' ' ∨ c = '\t'

/-- A non-empty string of ASCII digits (R189). -/
def IsDecimal (t : List Char) : Prop := t ≠ [] ∧ ∀ c ∈ t, '0' ≤ c ∧ c ≤ '9'

/-- Lines joined by single line feeds. -/
def joinLines (ls : List (List Char)) : String := String.ofList (List.intercalate ['\n'] ls)

/-- A digit string without its leading zeros; all zeros leave one (R202). -/
def stripZeros (t : List Char) : List Char :=
  match t.dropWhile (fun c => c == '0') with
  | [] => ['0']
  | r => r

/-- A trimmed line in the normal form of R202: the mnemonic, one space, the operands without spaces and leading zeros. -/
def normalLine (line : List Char) : List Char :=
  match lineOperandText line with
  | [] => lineMnemonic line
  | t => lineMnemonic line ++ ' ' ::
      List.intercalate [','] ((splitAt ',' t).map fun p => stripZeros (trim p))

/-- The non-blank lines of a text, trimmed. -/
def sourceLines (text : String) : List (List Char) :=
  ((numberedLines text.toList).map Prod.snd).filter (fun l => !l.isEmpty)

end Sys2Proof.Claims

open Sys2Proof Sys2Proof.Machine Sys2Proof.Claims

/-! ### Encoding -/

/-- Decoding an encoded instruction gives it back, every operand at every value, from the word and from the bytes with
anything after them (30_encoding.md sections 3 and 5, R204). -/
def Obligations.EncodedInstructionDecodesToItself : Prop :=
  ∀ i : Instr, decode (encode i) = .instr i ∧ ∀ rest, decodeBytes (encodeBytes i ++ rest) = .ok (i, rest)

/-- R74, R72: a word is an instruction of a row exactly when `w & mask = match`; no two rows share a word; and the
operands are the word's fields as they stand. -/
def Obligations.DecodeFollowsTheOpcodeTable : Prop :=
  (∀ (w : Word) (o : Op), (∃ i, decode w = .instr i ∧ i.op = o) ↔ w &&& o.mask = o.code) ∧
  (∀ (w : Word) (o p : Op), w &&& o.mask = o.code → w &&& p.mask = p.code → o = p) ∧
  (∀ (w : Word) (i : Instr), decode w = .instr i → i.operands = operandsOf i.op.format w.toNat)

/-- The undefined words are those of R76's table, group by group (R76 is derived, C1 for group 0x0), and each only
advances pc and returns `Ok(None)`: for groups 0x0, 0xE and 0xF that is the spec's decision D12. -/
def Obligations.UndefinedWordsAreNoOperations : Prop :=
  ∀ w : Word,
    (∀ g, decode w = .undefined g → ∀ s, runWord w s = .next { s with pc := s.pc + 2, ret := .ok .none }) ∧
    (decode w = .undefined .group0 ↔ w.toNat / 4096 = 0 ∧ w.toNat ≠ 0x0E0 ∧ w.toNat ≠ 0x0EE) ∧
    (decode w = .undefined .group8 ↔ w.toNat / 4096 = 8 ∧ w.toNat % 16 ∈ [8, 9, 10, 11, 12, 13, 15]) ∧
    (decode w = .undefined .groupE ↔ w.toNat / 4096 = 14 ∧ w.toNat % 256 ≠ 0x9E ∧ w.toNat % 256 ≠ 0xA1) ∧
    (decode w = .undefined .groupF ↔ w.toNat / 4096 = 15 ∧
      w.toNat % 256 ∉ [0x07, 0x0A, 0x15, 0x18, 0x1E, 0x29, 0x33, 0x55, 0x65])

/-- A few words written out from the encodings of 30_encoding.md, one or two per family. -/
def Obligations.SampleWordsDecode : Prop :=
  decode 0x00EE = .instr .ret ∧ decode 0x220A = .instr (.call 522) ∧ decode 0x3100 = .instr (.se 1 0) ∧
  decode 0x6A0F = .instr (.ld 10 15) ∧ decode 0x8017 = .instr (.subn 0 1) ∧ decode 0x8015 = .instr (.sub 0 1) ∧
  decode 0xA300 = .instr (.ldi 768) ∧ decode 0xF265 = .instr (.ldm 2) ∧ decode 0xF507 = .instr (.gdt 5) ∧
  decode 0xD125 = .instr (.drw 1 2 5) ∧ decode 0xE3A1 = .instr (.sknp 3) ∧ decode 0x0000 = .undefined .group0

/-- The canonical words are exactly the encodings of the 34 instructions, and they are the words the disassembler
recognises, by the codec's masks (R80 is derived; decision D9). -/
def Obligations.CanonicalWordsAreTheEncodings : Prop :=
  ∀ (w : Word) (o : Op), opOfWord? w = some o ↔ ∃ i : Instr, i.op = o ∧ encode i = w

/-! ### The cycle -/

/-- A step runs the decoded instruction: with no gate closed and the fetch inside memory, `step` is `exec` of what the
two bytes at pc, the lower address first, decode to (40_step_cycle.md section 1). -/
def Obligations.StepRunsTheFetchedInstruction : Prop :=
  ∀ (s : State) (i : Instr), s.fault = none → s.halted = false → s.pc.toNat ≤ 4094 →
    decode (BitVec.ofNat 16 ((Memory.read s.mem s.pc.toNat).toNat * 256 +
      (Memory.read s.mem (s.pc.toNat + 1)).toNat)) = .instr i →
    step s = exec i s

/-- An instruction placed by `withFetchWord` is what the very next step fetches and runs, from every state; and
`decodeTableWord` reads the same instruction (the model's own, log entry 7). -/
def Obligations.PlacedWordRunsNext : Prop :=
  ∀ (s : State) (w : Nat), step (s.withFetchWord 16 w) = runWord (BitVec.ofNat 16 w) (s.withFetchWord 16 w) ∧
    ∀ i, decodeTableWord 16 w = some i ↔ decode (BitVec.ofNat 16 w) = .instr i

/-- R104: a halted step is a no-op that returns `Ok(None)`, whatever pc is. -/
def Obligations.HaltedStepChangesNothing : Prop :=
  ∀ s : State, s.halted = true → step s = .next { s with ret := .ok .none }

/-- R144: `8xyN` with N in 8, 9, A, B, C, D, F is a no-operation. -/
def Obligations.UnusedGroup8SelectorsAreNoOperations : Prop :=
  ∀ (s : State) (x y : RegIdx) (n : Nat), n ∈ [8, 9, 10, 11, 12, 13, 15] →
    runWord (BitVec.ofNat 16 (0x8000 + x.val * 256 + y.val * 16 + n)) s =
      .next { s with pc := s.pc + 2, ret := .ok .none }

/-- Every step answers a next state, from every state (R247's totality; that a fault is a next state is log entry 1). -/
def Obligations.StepAlwaysAnswersANextState : Prop :=
  ∀ s : State, ∃ t, step s = .next t

/-- R101: pc is advanced before the instruction executes, so `CALL` pushes pc0 + 2, a taken skip adds a further 2, and
`WKEY` halts with pc already past itself. Derived: that a key skip is taken in the same step, on the host's answer, is
decision D23. -/
def Obligations.PcIsAdvancedBeforeExecution : Prop :=
  ∀ s : State,
    (∀ nnn, ∃ t, exec (.call nnn) s = .next t ∧ t.stack = (s.pc + 2) :: s.stack) ∧
    (∀ x nn, s.getV x = nn → ∃ t, exec (.se x nn) s = .next t ∧ t.pc = s.pc + 2 + 2) ∧
    (∀ x nn, s.getV x ≠ nn → ∃ t, exec (.sne x nn) s = .next t ∧ t.pc = s.pc + 2 + 2) ∧
    (∀ x y, s.getV x = s.getV y → ∃ t, exec (.ser x y) s = .next t ∧ t.pc = s.pc + 2 + 2) ∧
    (∀ x y, s.getV x ≠ s.getV y → ∃ t, exec (.sner x y) s = .next t ∧ t.pc = s.pc + 2 + 2) ∧
    (∀ x, ∃ t, keyQueryWith true x .ifPressed s = .next t ∧ t.pc = s.pc + 2 + 2) ∧
    (∀ x, ∃ t, keyQueryWith false x .ifNotPressed s = .next t ∧ t.pc = s.pc + 2 + 2) ∧
    (∀ x, ∃ t, exec (.wkey x) s = .next t ∧ t.halted = true ∧ t.pc = s.pc + 2)

/-- How a step leaves pc: R29's table, row by row. The rows of `SKP`, `SKNP` rest on decision D23 and the faulting row on
decision D16. -/
def Obligations.PcAfterEveryStep : Prop :=
  ∀ s t : State, step s = .next t →
    ((s.fault ≠ none ∨ s.halted = true) → t.pc = s.pc) ∧
    (s.fault = none → s.halted = false → t.fault ≠ none → t.pc = s.pc) ∧
    (s.fault = none → s.halted = false → t.fault = none → t.pc = pcAfter s.fetchedWord s)

/-! ### Faults (the latch, its causes and their values are the spec's decisions D14 to D18) -/

/-- A running step raises a cause exactly under the condition of R211's table, at most one applies, and raising changes
nothing but the latch and the returned value. -/
def Obligations.FaultsAreExactlyTheListedOnes : Prop :=
  ∀ s t : State, s.fault = none → s.halted = false → step s = .next t →
    (∀ f, t.fault = some f ↔ RaisedWhen s f) ∧
    (∀ f, t.fault = some f → t = { s with fault := some f, ret := .fault f })

/-- Once a fault is set, any sequence of driver calls changes nothing: a step only returns `Ok(None)`. -/
def Obligations.FaultedCoreIsInert : Prop :=
  ∀ (s : State) (calls : List Call), s.fault ≠ none →
    ∃ r, runCalls calls s = .next { s with ret := r } ∧ (r = s.ret ∨ r = .ok .none)

/-! ### Control transfer -/

/-- R117. -/
def Obligations.JumpSetsThePc : Prop :=
  ∀ (s : State) (nnn : Addr12),
    decode (BitVec.ofNat 16 (0x1000 + nnn.toNat)) = .instr (.jp nnn) ∧
    exec (.jp nnn) s = .next { s with pc := BitVec.ofNat 16 nnn.toNat, ret := .ok .none }

/-- `CALL nnn` pushes pc0 + 2 and jumps, at every depth: the absence of a cap is decision D18. Under a stack limit L (a
parameter of the model, D18) it raises `StackOverflow(pc0)` at depth L and pushes below it. -/
def Obligations.CallPushesTheReturnAddress : Prop :=
  ∀ (s : State) (nnn : Addr12),
    decode (BitVec.ofNat 16 (0x2000 + nnn.toNat)) = .instr (.call nnn) ∧
    exec (.call nnn) s = .next
      { s with stack := (s.pc + 2) :: s.stack, pc := BitVec.ofNat 16 nnn.toNat, ret := .ok .none } ∧
    ∀ l, (s.stack.length = l → Raises (.stackOverflow s.pc) s (callWithLimit (some l) nnn s)) ∧
      (s.stack.length < l → callWithLimit (some l) nnn s = exec (.call nnn) s)

/-- `RET` with a non-empty stack jumps to the popped value, as it is; with an empty stack it raises
`StackUnderflow(pc0)`, whose latch is decision D16. -/
def Obligations.ReturnPopsOrUnderflows : Prop :=
  ∀ s : State,
    (∀ a rest, s.stack = a :: rest → exec .ret s = .next { s with pc := a, stack := rest, ret := .ok .none }) ∧
    (s.stack = [] → Raises (.stackUnderflow s.pc) s (exec .ret s))

/-- A `CALL` whose target holds `RET`, two steps: pc is the address after the call, the stack as before, nothing else
changed (95_test_vectors.md S10). -/
def Obligations.CallThenReturnRestores : Prop :=
  ∀ (s : State) (nnn : Addr12), s.fault = none → s.halted = false → s.pc.toNat ≤ 4094 → nnn.toNat ≤ 4094 →
    s.fetchedWord = BitVec.ofNat 16 (0x2000 + nnn.toNat) →
    wordOfBytes (Memory.read s.mem nnn.toNat) (Memory.read s.mem (nnn.toNat + 1)) = 0x00EE →
    runCalls [.step, .step] s = .next { s with pc := s.pc + 2, ret := .ok .none }

/-- `JPV nnn` jumps to V[0] + nnn, not reduced to 12 bits (decision D33). -/
def Obligations.JumpPlusV0 : Prop :=
  ∀ (s : State) (nnn : Addr12),
    decode (BitVec.ofNat 16 (0xB000 + nnn.toNat)) = .instr (.jpv nnn) ∧
    exec (.jpv nnn) s = .next
      { s with pc := BitVec.ofNat 16 ((s.getV 0).toNat + nnn.toNat), ret := .ok .none }

/-- R120, R121. -/
def Obligations.SkipsOnAnImmediate : Prop :=
  ∀ (s : State) (x : RegIdx) (nn : Byte),
    decode (BitVec.ofNat 16 (0x3000 + x.val * 256 + nn.toNat)) = .instr (.se x nn) ∧
    decode (BitVec.ofNat 16 (0x4000 + x.val * 256 + nn.toNat)) = .instr (.sne x nn) ∧
    exec (.se x nn) s = .next
      { s with pc := if s.getV x = nn then s.pc + 4 else s.pc + 2, ret := .ok .none } ∧
    exec (.sne x nn) s = .next
      { s with pc := if s.getV x = nn then s.pc + 2 else s.pc + 4, ret := .ok .none }

/-- `SER`, `SNER`, for every value of the last nibble, which the interpreter ignores (decision D13). -/
def Obligations.SkipsOnARegister : Prop :=
  ∀ (s : State) (x y : RegIdx) (n : Nibble),
    decode (BitVec.ofNat 16 (0x5000 + x.val * 256 + y.val * 16 + n.toNat)) = .instr (.ser x y) ∧
    decode (BitVec.ofNat 16 (0x9000 + x.val * 256 + y.val * 16 + n.toNat)) = .instr (.sner x y) ∧
    exec (.ser x y) s = .next
      { s with pc := if s.getV x = s.getV y then s.pc + 4 else s.pc + 2, ret := .ok .none } ∧
    exec (.sner x y) s = .next
      { s with pc := if s.getV x = s.getV y then s.pc + 2 else s.pc + 4, ret := .ok .none }

/-! ### Load, arithmetic, logic, shift, random -/

/-- R131, R132: `ADD` wraps and writes no flag, even on overflow. -/
def Obligations.LoadAndAddImmediate : Prop :=
  ∀ (s : State) (x : RegIdx) (nn : Byte),
    decode (BitVec.ofNat 16 (0x6000 + x.val * 256 + nn.toNat)) = .instr (.ld x nn) ∧
    decode (BitVec.ofNat 16 (0x7000 + x.val * 256 + nn.toNat)) = .instr (.add x nn) ∧
    RegisterResult (.ld x nn) s (fun r => if r = x then nn else s.getV r) ∧
    RegisterResult (.add x nn) s
      (fun r => if r = x then BitVec.ofNat 8 (((s.getV x).toNat + nn.toNat) % 256) else s.getV r)

/-- `MOV`, `OR`, `AND`, `XOR`; that V[15] is left alone is decision D22. -/
def Obligations.MoveAndBitwise : Prop :=
  ∀ (s : State) (x y : RegIdx),
    RegisterResult (.mov x y) s (fun r => if r = x then s.getV y else s.getV r) ∧
    RegisterResult (.or x y) s (fun r => if r = x then s.getV x ||| s.getV y else s.getV r) ∧
    RegisterResult (.and x y) s (fun r => if r = x then s.getV x &&& s.getV y else s.getV r) ∧
    RegisterResult (.xor x y) s (fun r => if r = x then s.getV x ^^^ s.getV y else s.getV r)

/-- `ADDR`, `SUB`, `SUBN` with carry and not-borrow from the operands as they were; that the result wins where x = 15 is
decision D21. -/
def Obligations.AddAndSubtractWithFlag : Prop :=
  ∀ (s : State) (x y : RegIdx),
    FlagResult (.addr x y) s x (if 255 < (s.getV x).toNat + (s.getV y).toNat then 1 else 0)
      (BitVec.ofNat 8 (((s.getV x).toNat + (s.getV y).toNat) % 256)) ∧
    FlagResult (.sub x y) s x (if (s.getV y).toNat ≤ (s.getV x).toNat then 1 else 0)
      (BitVec.ofNat 8 (((s.getV x).toNat + 256 - (s.getV y).toNat) % 256)) ∧
    FlagResult (.subn x y) s x (if (s.getV x).toNat ≤ (s.getV y).toNat then 1 else 0)
      (BitVec.ofNat 8 (((s.getV y).toNat + 256 - (s.getV x).toNat) % 256))

/-- `SHR`, `SHL`: the source is V[x] under SHIFT_QUIRK and V[y] without it, the flag is the bit shifted out; that the
result wins where x = 15 is decision D21, and the reading of `SHL` is decision D41. -/
def Obligations.ShiftsWithFlag : Prop :=
  ∀ (s : State) (x y : RegIdx) (v : Byte), v = (if s.shiftQuirk then s.getV x else s.getV y) →
    FlagResult (.shr x y) s x (BitVec.ofNat 8 (v.toNat % 2)) (BitVec.ofNat 8 (v.toNat / 2)) ∧
    FlagResult (.shl x y) s x (BitVec.ofNat 8 (v.toNat / 128)) (BitVec.ofNat 8 (v.toNat * 2 % 256))

/-- R130's exact laws as numbers: result and flag of each 8-bit operation, for a destination that is not V[15] (with
V[15] as destination: `AddAndSubtractWithFlag`, `ShiftsWithFlag`). Derived: the reading of `SHL` is decision D41. -/
def Obligations.ExactArithmeticLaws : Prop :=
  ∀ (s : State) (x y : RegIdx) (a b : Nat), x ≠ 15 → a = (s.getV x).toNat → b = (s.getV y).toNat →
    (∃ t, exec (.addr x y) s = .next t ∧ (t.getV x).toNat = (a + b) % 256 ∧
      (t.getV 15).toNat = if 255 < a + b then 1 else 0) ∧
    (∃ t, exec (.sub x y) s = .next t ∧ (t.getV x).toNat = (if b ≤ a then a - b else a + 256 - b) ∧
      (t.getV 15).toNat = if b ≤ a then 1 else 0) ∧
    (∃ t, exec (.subn x y) s = .next t ∧ (t.getV x).toNat = (if a ≤ b then b - a else b + 256 - a) ∧
      (t.getV 15).toNat = if a ≤ b then 1 else 0) ∧
    (∃ t, exec (.shr x y) s = .next t ∧ (t.getV x).toNat = (if s.shiftQuirk then a else b) / 2 ∧
      (t.getV 15).toNat = (if s.shiftQuirk then a else b) % 2) ∧
    (∃ t, exec (.shl x y) s = .next t ∧ (t.getV x).toNat = (if s.shiftQuirk then a else b) * 2 % 256 ∧
      (t.getV 15).toNat = (if s.shiftQuirk then a else b) / 128) ∧
    (∃ t, exec (.or x y) s = .next t ∧ (t.getV x).toNat = a ||| b) ∧
    (∃ t, exec (.and x y) s = .next t ∧ (t.getV x).toNat = a &&& b) ∧
    (∃ t, exec (.xor x y) s = .next t ∧ (t.getV x).toNat = a ^^^ b) ∧
    (∀ nn : Byte, ∃ t, exec (.add x nn) s = .next t ∧ (t.getV x).toNat = (a + nn.toNat) % 256)

/-- `RND x,nn`: V[x] is some byte AND nn, for every byte that may be drawn; the byte is a free value (decision D28, log
entry 3), and the count of consumed inputs is the model's own. -/
def Obligations.RandomByteIsMasked : Prop :=
  ∀ (s : State) (x : RegIdx) (nn : Byte),
    decode (BitVec.ofNat 16 (0xC000 + x.val * 256 + nn.toNat)) = .instr (.rnd x nn) ∧
    exec (.rnd x nn) s = rndWith (Config.randomByte s.draws) x nn s ∧
    (∃ t, exec (.rnd x nn) s = .next t ∧
      (∀ r, t.getV r = if r = x then Config.randomByte s.draws &&& nn else s.getV r)) ∧
    ∀ d : Byte, ∃ t, rndWith d x nn s = .next t ∧ (∀ r, t.getV r = if r = x then d &&& nn else s.getV r) ∧
      t = { s with V := t.V, pc := s.pc + 2, draws := s.draws + 1, ret := .ok .none }

/-! ### Index register and memory -/

/-- R150, R151. -/
def Obligations.IndexLoadAndAdd : Prop :=
  ∀ (s : State) (nnn : Addr12) (x : RegIdx),
    decode (BitVec.ofNat 16 (0xA000 + nnn.toNat)) = .instr (.ldi nnn) ∧
    decode (BitVec.ofNat 16 (0xF01E + x.val * 256)) = .instr (.addi x) ∧
    exec (.ldi nnn) s = .next { s with I := BitVec.ofNat 16 nnn.toNat, pc := s.pc + 2, ret := .ok .none } ∧
    ∃ t, exec (.addi x) s = .next t ∧ t.I.toNat = (s.I.toNat + (s.getV x).toNat) % 65536 ∧
      (∀ r, t.getV r = if r = 15 then (if 4096 ≤ t.I.toNat then 1 else 0) else s.getV r) ∧
      t = { s with V := t.V, I := t.I, pc := s.pc + 2, ret := .ok .none }

/-- `FONT x`: I is 5 * V[x] for all 256 values, without masking (decision D29). -/
def Obligations.FontAddress : Prop :=
  ∀ (s : State) (x : RegIdx), exec (.font x) s = .next
    { s with I := BitVec.ofNat 16 ((s.getV x).toNat * 5), pc := s.pc + 2, ret := .ok .none }

/-- `BCD x` with I + 2 inside memory stores the three digits of V[x] at I, I + 1, I + 2, and nothing else but pc
changes; otherwise it raises `MemOutOfBounds(max(I, 4096))` before any write (decisions D14, D16). -/
def Obligations.BcdStoresTheDigits : Prop :=
  ∀ (s : State) (x : RegIdx),
    (s.I.toNat + 2 ≤ 4095 → ∃ t, exec (.bcd x) s = .next t ∧
      (∀ a, Memory.read t.mem a =
        if a = s.I.toNat then BitVec.ofNat 8 ((s.getV x).toNat / 100)
        else if a = s.I.toNat + 1 then BitVec.ofNat 8 ((s.getV x).toNat / 10 % 10)
        else if a = s.I.toNat + 2 then BitVec.ofNat 8 ((s.getV x).toNat % 10)
        else Memory.read s.mem a) ∧
      100 * (Memory.read t.mem s.I.toNat).toNat + 10 * (Memory.read t.mem (s.I.toNat + 1)).toNat +
        (Memory.read t.mem (s.I.toNat + 2)).toNat = (s.getV x).toNat ∧
      t = { s with mem := t.mem, pc := s.pc + 2, ret := .ok .none }) ∧
    (4095 < s.I.toNat + 2 → Raises (.memOutOfBounds (max s.I.toNat 4096)) s (exec (.bcd x) s))

/-- `STM x` with I + x inside memory stores V[0] .. V[x] at I .. I + x and advances I unless INDEX_QUIRK; otherwise it
raises `MemOutOfBounds(max(I, 4096))` before any write (decisions D14, D16; I wraps at 65536 by D33). -/
def Obligations.StoreRegisters : Prop :=
  ∀ (s : State) (x : RegIdx),
    (s.I.toNat + x.val ≤ 4095 → ∃ t, exec (.stm x) s = .next t ∧
      (∀ j : RegIdx, j ≤ x → Memory.read t.mem (s.I.toNat + j.val) = s.getV j) ∧
      (∀ a, (a < s.I.toNat ∨ s.I.toNat + x.val < a) → Memory.read t.mem a = Memory.read s.mem a) ∧
      t.I.toNat = (if s.indexQuirk then s.I.toNat else (s.I.toNat + x.val + 1) % 65536) ∧
      t = { s with mem := t.mem, I := t.I, pc := s.pc + 2, ret := .ok .none }) ∧
    (4095 < s.I.toNat + x.val → Raises (.memOutOfBounds (max s.I.toNat 4096)) s (exec (.stm x) s))

/-- `LDM x` with I + x inside memory loads V[0] .. V[x] from I .. I + x, leaves memory unchanged and advances I unless
INDEX_QUIRK; otherwise it raises `MemOutOfBounds(max(I, 4096))` with no register written (the decisions of `STM`). -/
def Obligations.LoadRegisters : Prop :=
  ∀ (s : State) (x : RegIdx),
    (s.I.toNat + x.val ≤ 4095 → ∃ t, exec (.ldm x) s = .next t ∧
      (∀ r, t.getV r = if r ≤ x then Memory.read s.mem (s.I.toNat + r.val) else s.getV r) ∧
      t.I.toNat = (if s.indexQuirk then s.I.toNat else (s.I.toNat + x.val + 1) % 65536) ∧
      t = { s with V := t.V, I := t.I, pc := s.pc + 2, ret := .ok .none }) ∧
    (4095 < s.I.toNat + x.val → Raises (.memOutOfBounds (max s.I.toNat 4096)) s (exec (.ldm x) s))

/-- Storing V[0] .. V[x], changing the registers at will, and loading from the same I gives V[0] .. V[x] back, the
others as changed. -/
def Obligations.StoreThenLoadRestoresRegisters : Prop :=
  ∀ (s t : State) (x : RegIdx) (v : Vector Byte 16), s.I.toNat + x.val ≤ 4095 → exec (.stm x) s = .next t →
    ∃ u, exec (.ldm x) { t with V := v, I := s.I } = .next u ∧
      (∀ r : RegIdx, u.getV r = if r ≤ x then s.getV r else v[r.val]'r.isLt) ∧ u.mem = t.mem

/-- A store is seen by every later fetch: once `BCD` or `STM` (or any other instruction) has run without a fault, a step
of any running state whose memory is the one it left, from any pc, runs the word of the stored bytes, each byte not
stored being the one from before (R65 is derived). -/
def Obligations.FetchSeesTheStoredBytes : Prop :=
  ∀ (i : Instr) (s t u : State), exec i s = .next t → t.fault = none →
    u.mem = t.mem → u.fault = none → u.halted = false → u.pc.toNat ≤ 4094 →
    step u = runWord (wordOfBytes (byteAfter i s u.pc.toNat) (byteAfter i s (u.pc.toNat + 1))) u

/-- Two memories in canonical form that read alike at every address are the same data (the model's form, log
entry 32). -/
def Obligations.MemoryFormIsUnique : Prop :=
  ∀ m n : Memory, Memory.wf m → Memory.wf n → (∀ a, a < 4096 → Memory.read m a = Memory.read n a) → m = n

/-! ### Timers -/

/-- `GDT`, `SDT` and `SST` (44_timers.md); that nothing else comes of the sound timer is decision D34. -/
def Obligations.TimerInstructions : Prop :=
  ∀ (s : State) (x : RegIdx),
    decode (BitVec.ofNat 16 (0xF007 + x.val * 256)) = .instr (.gdt x) ∧
    decode (BitVec.ofNat 16 (0xF015 + x.val * 256)) = .instr (.sdt x) ∧
    decode (BitVec.ofNat 16 (0xF018 + x.val * 256)) = .instr (.sst x) ∧
    RegisterResult (.gdt x) s (fun r => if r = x then s.dt else s.getV r) ∧
    exec (.sdt x) s = .next { s with dt := s.getV x, pc := s.pc + 2, ret := .ok .none } ∧
    exec (.sst x) s = .next { s with st := s.getV x, pc := s.pc + 2, ret := .ok .none }

/-- `tick()` counts both timers down to 0 and no further and changes nothing else, halted or not (decision D27); after k
ticks each timer has lost k, or is 0. -/
def Obligations.TicksCountDownToZero : Prop :=
  ∀ (s : State) (k : Nat), s.fault = none →
    runCalls (List.replicate k .tick) s = .next
      { s with dt := BitVec.ofNat 8 (s.dt.toNat - k), st := BitVec.ofNat 8 (s.st.toNat - k) }

/-! ### Host effects -/

/-- R170. -/
def Obligations.ClearScreenIsOnlyEmitted : Prop :=
  ∀ s : State, decode 0x00E0 = .instr .cls ∧
    exec .cls s = .next { s with pc := s.pc + 2, ret := .ok .clearScreen }

/-- `DRW x,y,n` emits its three indices and changes nothing but pc: no register, no V[15], no memory (decision D35). -/
def Obligations.DrawIsOnlyEmitted : Prop :=
  ∀ (s : State) (x y : RegIdx) (n : Nibble),
    decode (BitVec.ofNat 16 (0xD000 + x.val * 256 + y.val * 16 + n.toNat)) = .instr (.drw x y n) ∧
    exec (.drw x y n) s = .next { s with pc := s.pc + 2, ret := .ok (.drawSprite x y n) }

/-- `SKP`, `SKNP` for either answer of the host; the protocol is decision D23, which selector means pressed decision
D25, and the count of consumed inputs the model's own (log entry 3). -/
def Obligations.KeyQueriesSkipOnTheAnswer : Prop :=
  ∀ (s : State) (x : RegIdx),
    exec (.skp x) s = .next { s with
      pc := if Config.keyPressed s.draws then s.pc + 4 else s.pc + 2
      draws := s.draws + 1, ret := .ok (.keyConditional x .ifPressed) } ∧
    exec (.sknp x) s = .next { s with
      pc := if Config.keyPressed s.draws then s.pc + 2 else s.pc + 4
      draws := s.draws + 1, ret := .ok (.keyConditional x .ifNotPressed) } ∧
    ∀ p : Bool,
      keyQueryWith p x .ifPressed s = .next { s with
        pc := if p then s.pc + 4 else s.pc + 2
        draws := s.draws + 1, ret := .ok (.keyConditional x .ifPressed) } ∧
      keyQueryWith p x .ifNotPressed s = .next { s with
        pc := if p then s.pc + 2 else s.pc + 4
        draws := s.draws + 1, ret := .ok (.keyConditional x .ifNotPressed) }

/-- `deliver_key(x, k)` writes V[x] and clears halted while halted, and does nothing otherwise (decision D26). A host that
keeps its duties (R181) remembers the x of an `AwaitKey`, and a delivery for another one is refused (U11, log entry 37);
along any run of such a host from `construct` one is pending exactly while the core is halted, and the core does what
the same calls do without that host. -/
def Obligations.DeliverKeyReleasesTheHalt : Prop :=
  ∀ (s : State) (x : RegIdx) (k : Byte), s.fault = none →
    (s.halted = true →
      (∀ r, (deliverKey x k s).getV r = if r = x then k else s.getV r) ∧
      deliverKey x k s = { s with V := (deliverKey x k s).V, halted := false }) ∧
    (s.halted = false → deliverKey x k s = s) ∧
    (∀ y, y ≠ x → hostedCall (.deliverKey x k) ⟨s, some y⟩ = .refused (.keyForAnotherRegister x)) ∧
    (s.halted = true → hostedCall (.deliverKey x k) ⟨s, some x⟩ = .next ⟨deliverKey x k s, none⟩) ∧
    (s.halted = false → hostedCall (.deliverKey x k) ⟨s, none⟩ = .next ⟨s, none⟩) ∧
    (∀ t p, step s = .next t → t.ret = .ok (.awaitKey x) → hostedCall .step ⟨s, p⟩ = .next ⟨t, some x⟩) ∧
    (∀ sq iq prog calls h, construct sq iq prog = some s → runHosted calls ⟨s, none⟩ = .next h →
      runCalls calls s = .next h.core ∧ h.pending.isSome = h.core.halted)

/-- `WKEY x` halts with pc past itself and writes no register (decision D40). Then any number of steps and ticks leaves
everything but the timers and the returned value, and the delivery resumes at the instruction after `WKEY`
(95_test_vectors.md S9; ticks count while halted by decision D27). -/
def Obligations.AwaitedKeyResumesTheProgram : Prop :=
  ∀ (s : State) (x : RegIdx),
    exec (.wkey x) s = .next { s with halted := true, pc := s.pc + 2, ret := .ok (.awaitKey x) } ∧
    ∀ (k : Byte) (calls : List Call), s.fault = none → (∀ c ∈ calls, c = .step ∨ c = .tick) →
      ∃ t u v, exec (.wkey x) s = .next t ∧ runCalls calls t = .next u ∧
        u = { t with dt := u.dt, st := u.st, ret := u.ret } ∧
        runCalls [.deliverKey x k] u = .next v ∧ v.halted = false ∧ v.pc = s.pc + 2 ∧ v.getV x = k ∧
        ∀ r, r ≠ x → v.getV r = s.getV r

/-- R107: a running step is exactly one instruction or one undefined word, and the effect it returns is `None` for every
instruction except `CLS`, `DRW`, `SKP`, `SKNP`, `WKEY`. Derived: that an undefined word executes as NOP is decision
D12 (R144 for group 0x8). -/
def Obligations.OnlyFiveInstructionsEmit : Prop :=
  (∀ s : State, s.fault = none → s.halted = false → s.pc.toNat ≤ 4094 →
    (∃ i, decode s.fetchedWord = .instr i ∧ step s = exec i s) ∨
      ∃ g, decode s.fetchedWord = .undefined g ∧ step s = execNop s) ∧
  (∀ (i : Instr) (s t : State) (e : HostEffect), exec i s = .next t → t.ret = .ok e →
    (e = .none ↔ i.op ∉ [Op.cls, .drw, .skp, .sknp, .wkey])) ∧
  (∀ s t : State, execNop s = .next t → t.ret = .ok .none)

/-! ### Frames: what every instruction leaves unchanged -/

/-- Every general register is unchanged but the destination and, for the six instructions R24 names, V[15]. -/
def Obligations.FrameOfTheRegisters : Prop :=
  ∀ (i : Instr) (s t : State) (r : RegIdx), exec i s = .next t → r ∉ writtenRegs i → t.getV r = s.getV r

/-- Every byte of memory is unchanged but those `BCD` and `STM` store to, from the I of before the step. -/
def Obligations.FrameOfTheMemory : Prop :=
  ∀ (i : Instr) (s t : State), exec i s = .next t →
    ∀ a, ¬ Stores i s a → Memory.read t.mem a = Memory.read s.mem a

/-- I, the stack, the timers, halted, the quirk flags, the fault latch and the model's count of inputs are unchanged but
by the instructions the spec names for each. -/
def Obligations.FrameOfTheSpecialState : Prop :=
  ∀ (i : Instr) (s t : State), exec i s = .next t →
    (i.op ∉ [Op.ldi, .addi, .font, .stm, .ldm] → t.I = s.I) ∧
    (i.op ∉ [Op.call, .ret] → t.stack = s.stack) ∧
    (i.op ≠ .sdt → t.dt = s.dt) ∧ (i.op ≠ .sst → t.st = s.st) ∧
    (i.op ≠ .wkey → t.halted = s.halted) ∧
    t.shiftQuirk = s.shiftQuirk ∧ t.indexQuirk = s.indexQuirk ∧
    (i.op ∉ [Op.ret, .call, .bcd, .stm, .ldm] → t.fault = s.fault) ∧
    (i.op ∉ [Op.rnd, .skp, .sknp] → t.draws = s.draws)

/-- From R50: memory is reached by the fetch, by `BCD` and `STM` (writes) and by `LDM` (reads); no other instruction touches
it: what it does is the same over any memory, and it leaves that memory as it is. -/
def Obligations.OnlyThreeInstructionsTouchMemory : Prop :=
  (∀ (i : Instr) (s : State) (m : Memory), i.op ∉ [Op.bcd, .stm, .ldm] →
    exec i { s with mem := m } = mapNext (fun t => { t with mem := m }) (exec i s)) ∧
  (∀ (x : RegIdx) (s t : State), exec (.ldm x) s = .next t → t.mem = s.mem)

/-- From R38: SHIFT_QUIRK is read by `SHR` and `SHL` only, INDEX_QUIRK by `STM` and `LDM` only, and neither is ever changed by
a call. -/
def Obligations.QuirksAreReadOnlyWhereNamed : Prop :=
  (∀ (i : Instr) (s : State) (b : Bool), i.op ∉ [Op.shr, .shl] →
    exec i { s with shiftQuirk := b } = mapNext (fun t => { t with shiftQuirk := b }) (exec i s)) ∧
  (∀ (i : Instr) (s : State) (b : Bool), i.op ∉ [Op.stm, .ldm] →
    exec i { s with indexQuirk := b } = mapNext (fun t => { t with indexQuirk := b }) (exec i s)) ∧
  (∀ (c : Call) (s t : State), applyCall c s = .next t →
    t.shiftQuirk = s.shiftQuirk ∧ t.indexQuirk = s.indexQuirk)

/-! ### Construction, invariants, the end of a run -/

/-- R240, R56: what `construct` leaves, for every program that fits and all quirk flags. -/
def Obligations.ConstructLeavesTheStatedState : Prop :=
  ∀ (sq iq : Bool) (p : List Byte), p.length ≤ 3584 →
    ∃ s, construct sq iq p = some s ∧
      s.pc = 512 ∧ s.stack = [] ∧ s.dt = 0 ∧ s.st = 0 ∧ s.halted = false ∧
      s.shiftQuirk = sq ∧ s.indexQuirk = iq ∧
      (∀ d j, d < 16 → j < 5 → some (Memory.read s.mem (5 * d + j)) = Config.font[5 * d + j]?) ∧
      (∀ a, 80 ≤ a → a < 512 → Memory.read s.mem a = 0) ∧
      (∀ j, j < p.length → some (Memory.read s.mem (512 + j)) = p[j]?) ∧
      (∀ a, 512 + p.length ≤ a → a < 4096 → Memory.read s.mem a = 0)

/-- A program longer than 3584 bytes is refused, no instance exists (decision D30). -/
def Obligations.ConstructRefusesLongPrograms : Prop :=
  ∀ (sq iq : Bool) (p : List Byte), construct sq iq p = none ↔ 3584 < p.length

/-- `State.reset` is `construct` with the empty program and both quirk flags false (the model's choice, log entries 4
and 7), with every V[i] and I zero (the spec's decision D19, log entry 5). -/
def Obligations.ResetIsConstructWithoutAProgram : Prop :=
  construct false false [] = some State.reset ∧ (∀ r, State.reset.getV r = 0) ∧ State.reset.I = 0 ∧
    State.reset.pc = 512 ∧ State.reset.fault = none ∧ State.reset.stack = [] ∧ State.reset.mem = []

/-- Every step keeps the invariant, and so does every other call of the driver, `tick()` and `deliver_key`, from every
state that meets it (R47 is derived; the memory's form is log entry 32). -/
def Obligations.StepKeepsTheInvariant : Prop :=
  (∀ s t : State, s.Inv → step s = .next t → t.Inv) ∧
  (∀ (c : Call) (s t : State), s.Inv → applyCall c s = .next t → t.Inv)

/-- The invariant holds at reset. -/
def Obligations.ResetMeetsTheInvariant : Prop := State.reset.Inv

/-- After `construct` and any sequence of driver calls: a next state, the invariant, and the quirk flags of construction
(R47, derived). -/
def Obligations.EveryRunKeepsTheInvariant : Prop :=
  ∀ (sq iq : Bool) (p : List Byte) (s : State), construct sq iq p = some s →
    ∀ calls : List Call, ∃ t, runCalls calls s = .next t ∧ t.Inv ∧ t.shiftQuirk = sq ∧ t.indexQuirk = iq

/-- A run that has ended successfully stays as it is under any number of further steps (decision D38). -/
def Obligations.EndedRunStaysPut : Prop :=
  ∀ (s : State) (n : Nat), s.endedOk →
    runCalls (List.replicate (n + 1) .step) s = .next { s with ret := .ok .none }

/-! ### Codec (the text form is the spec's decisions D1 to D11) -/

/-- Assembling the printed lines of any instructions gives their bytes, and disassembling those gives the lines. -/
def Obligations.ListingRoundTrips : Prop :=
  ∀ is : List Instr,
    assemble (joinLines (is.map instrLine)) = .ok (is.flatMap encodeBytes) ∧
    disassemble (is.flatMap encodeBytes) = joinLines (is.map instrLine)

/-- Disassembling any words and assembling the text gives the canonical words back; the others are lost. -/
def Obligations.DisassembledWordsAssemble : Prop :=
  ∀ ws : List Word,
    assemble (disassemble (ws.flatMap bytesOfWord)) =
      .ok ((ws.filter fun w => (opOfWord? w).isSome).flatMap bytesOfWord)

/-- A text that assembles, all of its mnemonics known, comes back in normal form: blank lines removed, lines trimmed,
one space after the mnemonic, operands without spaces and leading zeros. -/
def Obligations.DisassembledTextIsNormalised : Prop :=
  ∀ (text : String) (bytes : List Byte), assemble text = .ok bytes →
    (∀ l ∈ sourceLines text, (Op.ofMnemonic? (String.ofList (lineMnemonic l))).isSome = true) →
    disassemble bytes = joinLines ((sourceLines text).map normalLine)

/-- R200: an unrecognised word, that is every undefined word and `5xyN`, `9xyN` with N not 0, decodes to an empty
string. -/
def Obligations.UnrecognisedWordPrintsEmpty : Prop :=
  ∀ w : Word, ((∃ g, decode w = .undefined g) ∨
      (w.toNat / 4096 = 5 ∨ w.toNat / 4096 = 9) ∧ w.toNat % 16 ≠ 0) →
    disassemble (bytesOfWord w) = ""

/-- A line with an unknown mnemonic assembles to the null opcode, whatever its operand text (decision D8), with leading
blanks or none, alone on its line or with a space or a tab after it (decision D4). A known mnemonic with an operand that
is no decimal number, a wrong number of operands, or an operand beyond its field, fails with its line, its mnemonic and
the kind, and yields no bytes (decisions D4, D5, D6, D7). -/
def Obligations.UnknownMnemonicsAndBadOperands : Prop :=
  (∀ lead m rest : List Char, Blanks lead → m ≠ [] → (∀ c ∈ m, c ≠ ' ' ∧ c ≠ '\t' ∧ c ≠ '\n') → '\n' ∉ rest →
    (rest = [] ∧ m.getLast? ≠ some '\r' ∨ rest = ['\r'] ∨ ∃ c ∈ rest.head?, c = ' ' ∨ c = '\t') →
    Op.ofMnemonic? (String.ofList m) = none →
    assemble (String.ofList (lead ++ m ++ rest)) = .ok [0, 0]) ∧
  (∀ (o : Op) (lead : List Char) (sep : Char) (rest : List Char), Blanks lead → Blanks [sep] → '\n' ∉ rest →
    trim (dropCr rest) ≠ [] → (∃ p ∈ splitAt ',' (dropCr rest), ¬ IsDecimal (trim p)) →
    assemble (String.ofList (lead ++ o.mnemonic.toList ++ sep :: rest)) =
      .error [⟨1, o.mnemonic, .operandParse⟩]) ∧
  (∀ (o : Op) (vs : List Nat),
    (vs.length ≠ o.format.limits.length →
      assemble (String.ofList (printLine o vs)) = .error [⟨1, o.mnemonic, .operandCount⟩]) ∧
    (vs.length = o.format.limits.length → operandsFit vs o.format.limits = false →
      assemble (String.ofList (printLine o vs)) = .error [⟨1, o.mnemonic, .operandRange⟩]))
end

