-- ==== Sys2Proof/Laws/Decode.lean ====
section
/-!
SUPPORT. The fields of a word and the byte order as arithmetic, so that encoding facts come down to `omega`.
-/

namespace Sys2Proof

theorem fieldF1_toNat (w : Word) : (fieldF1 w).toNat = w.toNat / 4096 := by
  have := w.isLt
  simp only [fieldF1, BitVec.extractLsb'_toNat, Nat.shiftRight_eq_div_pow]; omega

theorem fieldX_val (w : Word) : (fieldX w).val = w.toNat / 256 % 16 := by
  simp only [fieldX, BitVec.val_toFin, BitVec.extractLsb'_toNat, Nat.shiftRight_eq_div_pow]

theorem fieldY_val (w : Word) : (fieldY w).val = w.toNat / 16 % 16 := by
  simp only [fieldY, BitVec.val_toFin, BitVec.extractLsb'_toNat, Nat.shiftRight_eq_div_pow]

theorem fieldN_toNat (w : Word) : (fieldN w).toNat = w.toNat % 16 := by
  simp [fieldN]

theorem fieldNN_toNat (w : Word) : (fieldNN w).toNat = w.toNat % 256 := by
  simp [fieldNN]

theorem fieldNNN_toNat (w : Word) : (fieldNNN w).toNat = w.toNat % 4096 := by
  simp [fieldNNN]

/-- Splitting a word into its bytes and joining them again gives the word (R53, R90). -/
theorem wordOfBytes_high_low (w : Word) : wordOfBytes (highByte w) (lowByte w) = w := by
  apply BitVec.eq_of_toNat_eq
  have := w.isLt
  simp only [wordOfBytes, highByte, lowByte, BitVec.toNat_ofNat]
  omega

/-- The bytes of a joined word are the bytes it was joined from. -/
theorem bytesOfWord_wordOfBytes (hi lo : Byte) : bytesOfWord (wordOfBytes hi lo) = [hi, lo] := by
  have h1 := hi.isLt
  have h2 := lo.isLt
  simp only [bytesOfWord, List.cons.injEq, and_true]
  constructor <;> apply BitVec.eq_of_toNat_eq <;>
    simp only [wordOfBytes, highByte, lowByte, BitVec.toNat_ofNat] <;> omega

/-! ### A field is what its arithmetic says -/

theorem fieldF1_eq (w : Word) (k : BitVec 4) (h : w.toNat / 4096 = k.toNat) : fieldF1 w = k :=
  BitVec.eq_of_toNat_eq (by rw [fieldF1_toNat, h])

theorem fieldX_eq (w : Word) (k : RegIdx) (h : w.toNat / 256 % 16 = k.val) : fieldX w = k :=
  Fin.ext (by rw [fieldX_val, h])

theorem fieldY_eq (w : Word) (k : RegIdx) (h : w.toNat / 16 % 16 = k.val) : fieldY w = k :=
  Fin.ext (by rw [fieldY_val, h])

theorem fieldN_eq (w : Word) (k : Nibble) (h : w.toNat % 16 = k.toNat) : fieldN w = k :=
  BitVec.eq_of_toNat_eq (by rw [fieldN_toNat, h])

theorem fieldNN_eq (w : Word) (k : Byte) (h : w.toNat % 256 = k.toNat) : fieldNN w = k :=
  BitVec.eq_of_toNat_eq (by rw [fieldNN_toNat, h])

theorem fieldNNN_eq (w : Word) (k : Addr12) (h : w.toNat % 4096 = k.toNat) : fieldNNN w = k :=
  BitVec.eq_of_toNat_eq (by rw [fieldNNN_toNat, h])

/-! ### The masks of the opcode table, on numbers -/

/-- A mask of group nibble and the low `k` bits, on numbers. -/
theorem land_mask (n k : Nat) (hn : n < 65536) (hk : k ≤ 12) :
    n &&& (15 * 2 ^ 12 + (2 ^ k - 1)) = n / 2 ^ 12 * 2 ^ 12 + n % 2 ^ k := by
  have hp : 2 ^ k ≤ 2 ^ 12 := Nat.pow_le_pow_right (by decide) hk
  have hlt : 2 ^ k - 1 < 2 ^ 12 := lt_of_lt_of_le (Nat.sub_lt (Nat.two_pow_pos k) (by decide)) hp
  have hmod : n % 2 ^ k < 2 ^ 12 := lt_of_lt_of_le (Nat.mod_lt n (Nat.two_pow_pos k)) hp
  rw [Nat.mul_comm 15, Nat.mul_comm (n / 2 ^ 12)]
  apply Nat.eq_of_testBit_eq
  intro i
  rw [Nat.testBit_land, Nat.testBit_two_pow_mul_add _ hlt, Nat.testBit_two_pow_mul_add _ hmod]
  split
  · rw [Nat.testBit_two_pow_sub_one, Nat.testBit_mod_two_pow, Bool.and_comm]
  · next h =>
    rw [show (15 : Nat) = 2 ^ 4 - 1 from rfl, Nat.testBit_two_pow_sub_one, ← Nat.shiftRight_eq_div_pow,
      Nat.testBit_shiftRight, Nat.add_sub_cancel' (by omega)]
    by_cases hi : i < 16
    · simp [show i - 12 < 4 by omega]
    · have : n.testBit i = false := Nat.testBit_lt_two_pow
        (lt_of_lt_of_le (show n < 2 ^ 16 from hn) (Nat.pow_le_pow_right (by decide) (by omega)))
      simp [this]

theorem and_F000 (w : Word) : (w &&& 0xF000#16).toNat = w.toNat / 4096 * 4096 := by
  rw [BitVec.toNat_and]; have := land_mask w.toNat 0 w.isLt (by decide); simpa [Nat.mod_one] using this

theorem and_F00F (w : Word) : (w &&& 0xF00F#16).toNat = w.toNat / 4096 * 4096 + w.toNat % 16 := by
  rw [BitVec.toNat_and]; exact land_mask w.toNat 4 w.isLt (by decide)

theorem and_F0FF (w : Word) : (w &&& 0xF0FF#16).toNat = w.toNat / 4096 * 4096 + w.toNat % 256 := by
  rw [BitVec.toNat_and]; exact land_mask w.toNat 8 w.isLt (by decide)

theorem and_FFFF (w : Word) : w &&& 0xFFFF#16 = w := by
  rw [show (0xFFFF#16) = BitVec.allOnes 16 from rfl, BitVec.and_allOnes]

end Sys2Proof
end

