-- ==== Sys2Proof/Laws/State.lean ====
section
/-!
SUPPORT. One lemma per field per named update of `State`, so that no later proof unfolds a record update; and reading a
register after writing one.
-/

namespace Sys2Proof.Machine

/-! ### setV -/

@[simp] theorem State.setV_I (s : State) (i : RegIdx) (v : Byte) : (s.setV i v).I = s.I := rfl
@[simp] theorem State.setV_pc (s : State) (i : RegIdx) (v : Byte) : (s.setV i v).pc = s.pc := rfl
@[simp] theorem State.setV_mem (s : State) (i : RegIdx) (v : Byte) : (s.setV i v).mem = s.mem := rfl
@[simp] theorem State.setV_stack (s : State) (i : RegIdx) (v : Byte) : (s.setV i v).stack = s.stack := rfl
@[simp] theorem State.setV_dt (s : State) (i : RegIdx) (v : Byte) : (s.setV i v).dt = s.dt := rfl
@[simp] theorem State.setV_st (s : State) (i : RegIdx) (v : Byte) : (s.setV i v).st = s.st := rfl
@[simp] theorem State.setV_halted (s : State) (i : RegIdx) (v : Byte) : (s.setV i v).halted = s.halted := rfl
@[simp] theorem State.setV_shiftQuirk (s : State) (i : RegIdx) (v : Byte) : (s.setV i v).shiftQuirk = s.shiftQuirk := rfl
@[simp] theorem State.setV_indexQuirk (s : State) (i : RegIdx) (v : Byte) : (s.setV i v).indexQuirk = s.indexQuirk := rfl
@[simp] theorem State.setV_fault (s : State) (i : RegIdx) (v : Byte) : (s.setV i v).fault = s.fault := rfl
@[simp] theorem State.setV_ret (s : State) (i : RegIdx) (v : Byte) : (s.setV i v).ret = s.ret := rfl
@[simp] theorem State.setV_draws (s : State) (i : RegIdx) (v : Byte) : (s.setV i v).draws = s.draws := rfl

/-! ### advance -/

@[simp] theorem State.advance_V (s : State) : (s.advance).V = s.V := rfl
@[simp] theorem State.advance_I (s : State) : (s.advance).I = s.I := rfl
@[simp] theorem State.advance_mem (s : State) : (s.advance).mem = s.mem := rfl
@[simp] theorem State.advance_stack (s : State) : (s.advance).stack = s.stack := rfl
@[simp] theorem State.advance_dt (s : State) : (s.advance).dt = s.dt := rfl
@[simp] theorem State.advance_st (s : State) : (s.advance).st = s.st := rfl
@[simp] theorem State.advance_halted (s : State) : (s.advance).halted = s.halted := rfl
@[simp] theorem State.advance_shiftQuirk (s : State) : (s.advance).shiftQuirk = s.shiftQuirk := rfl
@[simp] theorem State.advance_indexQuirk (s : State) : (s.advance).indexQuirk = s.indexQuirk := rfl
@[simp] theorem State.advance_fault (s : State) : (s.advance).fault = s.fault := rfl
@[simp] theorem State.advance_ret (s : State) : (s.advance).ret = s.ret := rfl
@[simp] theorem State.advance_draws (s : State) : (s.advance).draws = s.draws := rfl

/-! ### jump -/

@[simp] theorem State.jump_V (s : State) (a : Word) : (s.jump a).V = s.V := rfl
@[simp] theorem State.jump_I (s : State) (a : Word) : (s.jump a).I = s.I := rfl
@[simp] theorem State.jump_mem (s : State) (a : Word) : (s.jump a).mem = s.mem := rfl
@[simp] theorem State.jump_stack (s : State) (a : Word) : (s.jump a).stack = s.stack := rfl
@[simp] theorem State.jump_dt (s : State) (a : Word) : (s.jump a).dt = s.dt := rfl
@[simp] theorem State.jump_st (s : State) (a : Word) : (s.jump a).st = s.st := rfl
@[simp] theorem State.jump_halted (s : State) (a : Word) : (s.jump a).halted = s.halted := rfl
@[simp] theorem State.jump_shiftQuirk (s : State) (a : Word) : (s.jump a).shiftQuirk = s.shiftQuirk := rfl
@[simp] theorem State.jump_indexQuirk (s : State) (a : Word) : (s.jump a).indexQuirk = s.indexQuirk := rfl
@[simp] theorem State.jump_fault (s : State) (a : Word) : (s.jump a).fault = s.fault := rfl
@[simp] theorem State.jump_ret (s : State) (a : Word) : (s.jump a).ret = s.ret := rfl
@[simp] theorem State.jump_draws (s : State) (a : Word) : (s.jump a).draws = s.draws := rfl

/-! ### consume -/

@[simp] theorem State.consume_V (s : State) : (s.consume).V = s.V := rfl
@[simp] theorem State.consume_I (s : State) : (s.consume).I = s.I := rfl
@[simp] theorem State.consume_pc (s : State) : (s.consume).pc = s.pc := rfl
@[simp] theorem State.consume_mem (s : State) : (s.consume).mem = s.mem := rfl
@[simp] theorem State.consume_stack (s : State) : (s.consume).stack = s.stack := rfl
@[simp] theorem State.consume_dt (s : State) : (s.consume).dt = s.dt := rfl
@[simp] theorem State.consume_st (s : State) : (s.consume).st = s.st := rfl
@[simp] theorem State.consume_halted (s : State) : (s.consume).halted = s.halted := rfl
@[simp] theorem State.consume_shiftQuirk (s : State) : (s.consume).shiftQuirk = s.shiftQuirk := rfl
@[simp] theorem State.consume_indexQuirk (s : State) : (s.consume).indexQuirk = s.indexQuirk := rfl
@[simp] theorem State.consume_fault (s : State) : (s.consume).fault = s.fault := rfl
@[simp] theorem State.consume_ret (s : State) : (s.consume).ret = s.ret := rfl

/-! ### setFlagged -/

@[simp] theorem State.setFlagged_I (s : State) (x : RegIdx) (f r : Byte) : (s.setFlagged x f r).I = s.I := rfl
@[simp] theorem State.setFlagged_pc (s : State) (x : RegIdx) (f r : Byte) : (s.setFlagged x f r).pc = s.pc := rfl
@[simp] theorem State.setFlagged_mem (s : State) (x : RegIdx) (f r : Byte) : (s.setFlagged x f r).mem = s.mem := rfl
@[simp] theorem State.setFlagged_stack (s : State) (x : RegIdx) (f r : Byte) : (s.setFlagged x f r).stack = s.stack := rfl
@[simp] theorem State.setFlagged_dt (s : State) (x : RegIdx) (f r : Byte) : (s.setFlagged x f r).dt = s.dt := rfl
@[simp] theorem State.setFlagged_st (s : State) (x : RegIdx) (f r : Byte) : (s.setFlagged x f r).st = s.st := rfl
@[simp] theorem State.setFlagged_halted (s : State) (x : RegIdx) (f r : Byte) : (s.setFlagged x f r).halted = s.halted := rfl
@[simp] theorem State.setFlagged_shiftQuirk (s : State) (x : RegIdx) (f r : Byte) : (s.setFlagged x f r).shiftQuirk = s.shiftQuirk := rfl
@[simp] theorem State.setFlagged_indexQuirk (s : State) (x : RegIdx) (f r : Byte) : (s.setFlagged x f r).indexQuirk = s.indexQuirk := rfl
@[simp] theorem State.setFlagged_fault (s : State) (x : RegIdx) (f r : Byte) : (s.setFlagged x f r).fault = s.fault := rfl
@[simp] theorem State.setFlagged_ret (s : State) (x : RegIdx) (f r : Byte) : (s.setFlagged x f r).ret = s.ret := rfl
@[simp] theorem State.setFlagged_draws (s : State) (x : RegIdx) (f r : Byte) : (s.setFlagged x f r).draws = s.draws := rfl

/-! ### skipIf -/

@[simp] theorem State.skipIf_V (s : State) (c : Bool) : (s.skipIf c).V = s.V := by cases c <;> rfl
@[simp] theorem State.skipIf_I (s : State) (c : Bool) : (s.skipIf c).I = s.I := by cases c <;> rfl
@[simp] theorem State.skipIf_mem (s : State) (c : Bool) : (s.skipIf c).mem = s.mem := by cases c <;> rfl
@[simp] theorem State.skipIf_stack (s : State) (c : Bool) : (s.skipIf c).stack = s.stack := by cases c <;> rfl
@[simp] theorem State.skipIf_dt (s : State) (c : Bool) : (s.skipIf c).dt = s.dt := by cases c <;> rfl
@[simp] theorem State.skipIf_st (s : State) (c : Bool) : (s.skipIf c).st = s.st := by cases c <;> rfl
@[simp] theorem State.skipIf_halted (s : State) (c : Bool) : (s.skipIf c).halted = s.halted := by cases c <;> rfl
@[simp] theorem State.skipIf_shiftQuirk (s : State) (c : Bool) : (s.skipIf c).shiftQuirk = s.shiftQuirk := by cases c <;> rfl
@[simp] theorem State.skipIf_indexQuirk (s : State) (c : Bool) : (s.skipIf c).indexQuirk = s.indexQuirk := by cases c <;> rfl
@[simp] theorem State.skipIf_fault (s : State) (c : Bool) : (s.skipIf c).fault = s.fault := by cases c <;> rfl
@[simp] theorem State.skipIf_ret (s : State) (c : Bool) : (s.skipIf c).ret = s.ret := by cases c <;> rfl
@[simp] theorem State.skipIf_draws (s : State) (c : Bool) : (s.skipIf c).draws = s.draws := by cases c <;> rfl

/-! ### bulkIndex -/

@[simp] theorem State.bulkIndex_V (s : State) (x : RegIdx) : (s.bulkIndex x).V = s.V := by unfold State.bulkIndex; split <;> rfl
@[simp] theorem State.bulkIndex_pc (s : State) (x : RegIdx) : (s.bulkIndex x).pc = s.pc := by unfold State.bulkIndex; split <;> rfl
@[simp] theorem State.bulkIndex_mem (s : State) (x : RegIdx) : (s.bulkIndex x).mem = s.mem := by unfold State.bulkIndex; split <;> rfl
@[simp] theorem State.bulkIndex_stack (s : State) (x : RegIdx) : (s.bulkIndex x).stack = s.stack := by unfold State.bulkIndex; split <;> rfl
@[simp] theorem State.bulkIndex_dt (s : State) (x : RegIdx) : (s.bulkIndex x).dt = s.dt := by unfold State.bulkIndex; split <;> rfl
@[simp] theorem State.bulkIndex_st (s : State) (x : RegIdx) : (s.bulkIndex x).st = s.st := by unfold State.bulkIndex; split <;> rfl
@[simp] theorem State.bulkIndex_halted (s : State) (x : RegIdx) : (s.bulkIndex x).halted = s.halted := by unfold State.bulkIndex; split <;> rfl
@[simp] theorem State.bulkIndex_shiftQuirk (s : State) (x : RegIdx) : (s.bulkIndex x).shiftQuirk = s.shiftQuirk := by unfold State.bulkIndex; split <;> rfl
@[simp] theorem State.bulkIndex_indexQuirk (s : State) (x : RegIdx) : (s.bulkIndex x).indexQuirk = s.indexQuirk := by unfold State.bulkIndex; split <;> rfl
@[simp] theorem State.bulkIndex_fault (s : State) (x : RegIdx) : (s.bulkIndex x).fault = s.fault := by unfold State.bulkIndex; split <;> rfl
@[simp] theorem State.bulkIndex_ret (s : State) (x : RegIdx) : (s.bulkIndex x).ret = s.ret := by unfold State.bulkIndex; split <;> rfl
@[simp] theorem State.bulkIndex_draws (s : State) (x : RegIdx) : (s.bulkIndex x).draws = s.draws := by unfold State.bulkIndex; split <;> rfl

/-! ### The fields that change -/

@[simp] theorem State.setV_V (s : State) (i : RegIdx) (v : Byte) : (s.setV i v).V = s.V.set i.val v i.isLt := rfl
@[simp] theorem State.advance_pc (s : State) : s.advance.pc = s.pc + 2 := rfl
@[simp] theorem State.jump_pc (s : State) (a : Word) : (s.jump a).pc = a := rfl
@[simp] theorem State.consume_draws (s : State) : s.consume.draws = s.draws + 1 := rfl
theorem State.skipIf_pc (s : State) (c : Bool) : (s.skipIf c).pc = if c then s.pc + 2 else s.pc := by cases c <;> rfl
theorem State.bulkIndex_I (s : State) (x : RegIdx) :
    (s.bulkIndex x).I = if s.indexQuirk then s.I else s.I + BitVec.ofNat 16 (x.val + 1) := by
  unfold State.bulkIndex; split <;> rfl

/-! ### Reading a register -/

/-- Register reads look at `V` alone. -/
theorem State.getV_congr {s t : State} (h : t.V = s.V) (r : RegIdx) : t.getV r = s.getV r := by
  simp [State.getV, h]

/-- Two register files with the same 16 values are the same (so a frame over `getV` is one over `V`). -/
theorem State.V_eq_of_getV {s t : State} (h : ∀ r, t.getV r = s.getV r) : t.V = s.V := by
  apply Vector.ext
  intro i hi
  have := h ⟨i, hi⟩
  exact this

/-- Read after write. -/
theorem State.getV_setV (s : State) (i r : RegIdx) (v : Byte) :
    (s.setV i v).getV r = if r = i then v else s.getV r := by
  rcases eq_or_ne r i with rfl | h
  · simp [State.getV, State.setV]
  · have : i.val ≠ r.val := fun e => h (Fin.ext e.symm)
    simp [State.getV, State.setV, h, this]

@[simp] theorem State.advance_getV (s : State) (r : RegIdx) : (s.advance).getV r = s.getV r := State.getV_congr (by simp) r
@[simp] theorem State.jump_getV (s : State) (a : Word) (r : RegIdx) : (s.jump a).getV r = s.getV r := State.getV_congr (by simp) r
@[simp] theorem State.consume_getV (s : State) (r : RegIdx) : (s.consume).getV r = s.getV r := State.getV_congr (by simp) r
@[simp] theorem State.skipIf_getV (s : State) (c : Bool) (r : RegIdx) : (s.skipIf c).getV r = s.getV r := State.getV_congr (by simp) r
@[simp] theorem State.bulkIndex_getV (s : State) (x : RegIdx) (r : RegIdx) : (s.bulkIndex x).getV r = s.getV r := State.getV_congr (by simp) r

/-- Flag first, result second: every register after a flag-writing instruction (R33). -/
theorem State.getV_setFlagged (s : State) (x r : RegIdx) (f v : Byte) :
    (s.setFlagged x f v).getV r = if r = x then v else if r = 15 then f else s.getV r := by
  simp [State.setFlagged, State.getV_setV]

/-- Every register after `LDM x` (R155). -/
theorem State.getV_loadedRegs (s t : State) (x r : RegIdx) (h : t.V = s.loadedRegs x) :
    t.getV r = if r ≤ x then Memory.read s.mem (s.I.toNat + r.val) else s.getV r := by
  simp [State.getV, h, State.loadedRegs]

end Sys2Proof.Machine
end

