-- ==== Sys2Proof/Laws/Memory.lean ====
section
/-!
SUPPORT. The memory operations: what a read gives after a store, and that every operation keeps the canonical form.
-/

namespace Sys2Proof.Machine

/-! ### Reading -/

theorem Memory.read_insertCell (a b : Nat) (v : Byte) (m : List Host.Cell) (h : ∀ c ∈ m, c.1 ≠ a) :
    Memory.read (insertCell a v m) b = if b = a then v else Memory.read m b := by
  induction m with
  | nil => simp [insertCell, Memory.read, eq_comm]
  | cons c m ih =>
    have hc : c.1 ≠ a := h c (by simp)
    have ih := ih fun d hd => h d (by simp [hd])
    simp only [insertCell]
    split
    · simp [Memory.read, eq_comm]
    · simp only [Memory.read, ih]
      by_cases hb : c.1 = b
      · subst hb; simp [hc]
      · simp [hb]

theorem Memory.read_filter (a b : Nat) (m : List Host.Cell) :
    Memory.read (m.filter fun c => decide (c.1 ≠ a)) b =
      if b = a then unlistedByte a else Memory.read m b := by
  induction m with
  | nil => simp +contextual [Memory.read]
  | cons c m ih =>
    by_cases hc : c.1 = a
    · have hd : decide (c.1 ≠ a) = false := by simp [hc]
      rw [List.filter_cons_of_neg (by simp [hc]), ih]
      by_cases hb : b = a
      · simp [hb]
      · simp [hb, Memory.read, hc, Ne.symm hb]
    · rw [List.filter_cons_of_pos (by simp [hc])]
      simp only [Memory.read, ih]
      by_cases hb : c.1 = b
      · subst hb; simp [hc]
      · simp [hb]

/-- A read after a store of a byte: the byte at its address, every other address as before (R55). -/
theorem Memory.read_write (m : Memory) {a : Nat} (ha : a < 4096) (v : Byte) (b : Nat) :
    Memory.read (Memory.write m a v) b = if b = a then v else Memory.read m b := by
  unfold Memory.write
  rw [if_neg (by simp only [Config.memSize]; omega)]
  split
  · next h => rw [Memory.read_filter, h]
  · rw [Memory.read_insertCell]
    · rw [Memory.read_filter]; by_cases hb : b = a <;> simp [hb]
    · intro c hc; simpa using (List.mem_filter.mp hc).2

/-- A store of a run of bytes: each address of the run reads its byte, every other address reads as before. -/
theorem Memory.read_writeRun (m : Memory) (a : Nat) (vs : List Byte) (h : a + vs.length ≤ 4096) (b : Nat) :
    Memory.read (Memory.writeRun m a vs) b =
      if a ≤ b ∧ b < a + vs.length then vs.getD (b - a) 0 else Memory.read m b := by
  induction vs generalizing m a with
  | nil => rw [if_neg (by simp)]; rfl
  | cons v vs ih =>
    have hl : (v :: vs).length = vs.length + 1 := rfl
    rw [Memory.writeRun, ih _ _ (by omega), Memory.read_write m (by omega) v b]
    by_cases hb : b = a
    · subst hb
      rw [if_neg (by omega), if_pos rfl, if_pos (by omega)]
      simp
    · by_cases hr : a + 1 ≤ b ∧ b < a + 1 + vs.length
      · rw [if_pos hr, if_pos (by omega)]
        obtain ⟨k, hk⟩ : ∃ k, b - a = k + 1 := ⟨b - a - 1, by omega⟩
        have : b - (a + 1) = k := by omega
        simp [hk, this]
      · rw [if_neg hr, if_neg hb, if_neg (by omega)]

/-! ### The canonical form -/

theorem insertCell_mem (a : Nat) (v : Byte) (m : List Host.Cell) (c : Host.Cell) :
    c ∈ insertCell a v m ↔ c = (a, v) ∨ c ∈ m := by
  induction m with
  | nil => simp [insertCell]
  | cons d m ih =>
    simp only [insertCell]
    split
    · simp
    · simp [ih]; tauto

theorem insertCell_rises (a : Nat) (v : Byte) (m : List Host.Cell)
    (hm : m.Pairwise fun c d => c.1 < d.1) (ha : ∀ c ∈ m, c.1 ≠ a) :
    (insertCell a v m).Pairwise fun c d => c.1 < d.1 := by
  induction m with
  | nil => simp [insertCell]
  | cons c m ih =>
    obtain ⟨hc, hm'⟩ := List.pairwise_cons.mp hm
    simp only [insertCell]
    split
    · next hlt =>
      refine List.pairwise_cons.mpr ⟨?_, hm⟩
      intro d hd
      rcases List.mem_cons.mp hd with rfl | hd
      · exact hlt
      · exact lt_trans hlt (hc d hd)
    · next hlt =>
      refine List.pairwise_cons.mpr ⟨?_, ih hm' fun d hd => ha d (by simp [hd])⟩
      intro d hd
      rcases (insertCell_mem a v m d).mp hd with rfl | hd
      · have := ha c (by simp)
        show c.1 < a
        omega
      · exact hc d hd

/-- A store keeps the canonical form. -/
theorem Memory.wf_write {m : Memory} (hm : Memory.wf m) (a : Nat) (v : Byte) : Memory.wf (Memory.write m a v) := by
  obtain ⟨hp, hc⟩ := hm
  have hp' : (m.filter fun c => decide (c.1 ≠ a)).Pairwise fun c d => c.1 < d.1 := hp.filter _
  have hc' : ∀ c ∈ m.filter fun c => decide (c.1 ≠ a), c.1 < Config.memSize ∧ c.2 ≠ unlistedByte c.1 :=
    fun c h => hc c (List.mem_filter.mp h).1
  unfold Memory.write
  split
  · exact ⟨hp, hc⟩
  · next hlt =>
    split
    · exact ⟨hp', hc'⟩
    · next hv =>
      refine ⟨insertCell_rises a v _ hp' fun c h => by simpa using (List.mem_filter.mp h).2, fun c h => ?_⟩
      rcases (insertCell_mem a v _ c).mp h with rfl | h
      · exact ⟨by show a < Config.memSize; omega, hv⟩
      · exact hc' c h

/-- A store of a run of bytes keeps the canonical form. -/
theorem Memory.wf_writeRun {m : Memory} (hm : Memory.wf m) (a : Nat) (vs : List Byte) :
    Memory.wf (Memory.writeRun m a vs) := by
  induction vs generalizing m a with
  | nil => exact hm
  | cons v vs ih => exact ih (Memory.wf_write hm a v) (a + 1)

/-- The memory of the state after reset has the canonical form. -/
theorem State.reset_mem_wf : Memory.wf State.reset.mem := by decide

end Sys2Proof.Machine
end

