-- ==== Sys2Proof/Laws/Ops.lean ====
section
/-!
SUPPORT. One lemma per shared operation, saying once everything it can answer: the ends of a step, the operations the
meanings share, the cycle, and a run of calls. Provers cite these instead of unfolding the operation.
-/

namespace Sys2Proof.Machine

/-! ### The ends of a step -/

@[simp] theorem complete_eq_next (s t : State) : complete s = .next t ↔ t = { s with ret := .ok .none } := by
  simp [complete, eq_comm]

@[simp] theorem emit_eq_next (e : HostEffect) (s t : State) : emit e s = .next t ↔ t = { s with ret := .ok e } := by
  simp [emit, eq_comm]

@[simp] theorem raise_eq_next (f : Fault) (s t : State) :
    raise f s = .next t ↔ t = { s with fault := some f, ret := .fault f } := by
  simp [raise, eq_comm]

/-! ### Shared operations of the meanings -/

/-- A conditional skip always completes, and changes only pc (R115, R120 to R123). -/
theorem skipWhen_eq_next (c : Bool) (s t : State) :
    skipWhen c s = .next t ↔
      t = { s with pc := if c then s.pc + 2 + 2 else s.pc + 2, ret := .ok .none } := by
  cases c <;> simp [skipWhen, State.skipIf, State.advance]

/-- A register write always completes: pc, V[x] and nothing else. -/
theorem writeReg_eq_next (x : RegIdx) (v : Byte) (s t : State) :
    writeReg x v s = .next t ↔ t = { s with V := (s.setV x v).V, pc := s.pc + 2, ret := .ok .none } := by
  simp [writeReg, State.setV, State.advance]

/-- A flag-writing instruction always completes: pc, V[15], V[x] and nothing else. -/
theorem writeFlagged_eq_next (x : RegIdx) (f v : Byte) (s t : State) :
    writeFlagged x f v s = .next t ↔
      t = { s with V := (s.setFlagged x f v).V, pc := s.pc + 2, ret := .ok .none } := by
  simp [writeFlagged, State.setFlagged, State.setV, State.advance]

/-- The write of I and its flag always completes. -/
theorem writeIndexFlagged_eq_next (i : Word) (s t : State) :
    writeIndexFlagged i s = .next t ↔
      t = { s with V := (s.setV 15 (indexFlag i)).V, I := i, pc := s.pc + 2, ret := .ok .none } := by
  simp [writeIndexFlagged, State.setV, State.advance]

/-- A memory instruction either runs on the state before the step, its whole run of addresses existing, or raises
`MemOutOfBounds` with nothing accessed (R52, R156). -/
theorem withRun_cases (last : Nat) (s : State) (k : State → Result) :
    (s.I.toNat + last ≤ 4095 ∧ withRun last s k = k s) ∨
      (4095 < s.I.toNat + last ∧ withRun last s k = raise (.memOutOfBounds (max s.I.toNat 4096)) s) := by
  by_cases h : s.I.toNat + last ≤ 4095
  · exact .inl ⟨h, by simp [withRun, State.runFits, h]⟩
  · exact .inr ⟨by omega, by simp [withRun, State.runFits, State.runFaultAddr, h]⟩

/-- `CALL` either raises at its limit or pushes and jumps (R118). -/
theorem callWithLimit_cases (limit : Option Nat) (nnn : Addr12) (s : State) :
    (limit = some s.stack.length ∧ callWithLimit limit nnn s = raise (.stackOverflow s.pc) s) ∨
      (limit ≠ some s.stack.length ∧
        callWithLimit limit nnn s =
          complete { s with stack := (s.pc + 2) :: s.stack, pc := addrOperand nnn }) := by
  by_cases h : limit = some s.stack.length
  · exact .inl ⟨h, by simp [callWithLimit, h]⟩
  · exact .inr ⟨h, by simp [callWithLimit, h]⟩

/-- A key query always completes: pc, the count of consumed inputs, the effect, and nothing else. -/
theorem keyQueryWith_eq_next (p : Bool) (x : RegIdx) (sel : KeySelector) (s t : State) :
    keyQueryWith p x sel s = .next t ↔
      t = { s with
        pc := if answerSatisfies sel p then s.pc + 2 + 2 else s.pc + 2
        draws := s.draws + 1
        ret := .ok (.keyConditional x sel) } := by
  cases h : answerSatisfies sel p <;>
    simp [keyQueryWith, h, State.skipIf, State.advance, State.consume]

/-- I after a bulk transfer; no other field. -/
theorem State.bulkIndex_eq (s : State) (x : RegIdx) :
    s.bulkIndex x = { s with I := if s.indexQuirk then s.I else s.I + BitVec.ofNat 16 (x.val + 1) } := by
  unfold State.bulkIndex; split <;> rfl

/-! ### The cycle -/

/-- A word either decodes to an instruction and executes it, or is undefined and executes as NOP (R100, R103). -/
theorem runWord_cases (w : Word) (s : State) :
    (∃ i, decode w = .instr i ∧ runWord w s = exec i s) ∨
      (∃ g, decode w = .undefined g ∧ runWord w s = execNop s) := by
  unfold runWord
  split
  · next i h => exact .inl ⟨i, h, rfl⟩
  · next g h => exact .inr ⟨g, h, rfl⟩

/-- Everything a step can be (R100, R109): inert behind a gate, a fetch fault, or one word run. -/
theorem step_cases (s : State) :
    (s.fault ≠ none ∧ step s = complete s) ∨
    (s.fault = none ∧ s.halted = true ∧ step s = complete s) ∨
    (s.fault = none ∧ s.halted = false ∧ 4094 < s.pc.toNat ∧ step s = raise (.fetchOutOfBounds s.pc) s) ∨
    (s.fault = none ∧ s.halted = false ∧ s.pc.toNat ≤ 4094 ∧ step s = runWord s.fetchedWord s) := by
  unfold step cycle
  cases hf : s.fault with
  | some f => exact .inl ⟨by simp, by simp⟩
  | none =>
    cases hh : s.halted with
    | true => exact .inr (.inl ⟨rfl, rfl, by simp⟩)
    | false =>
      by_cases hp : s.pc.toNat ≤ 4094
      · exact .inr (.inr (.inr ⟨rfl, rfl, hp, by simp [State.fetchFits, hp]⟩))
      · exact .inr (.inr (.inl ⟨rfl, rfl, by omega, by simp [State.fetchFits, hp]⟩))

/-- The three conditions under which a step runs a word are the same as `running` and `fetchFits`. -/
theorem State.running_iff (s : State) : s.running = true ↔ s.fault = none ∧ s.halted = false := by
  simp [State.running]

/-! ### Calls -/

@[simp] theorem runCalls_nil (s : State) : runCalls [] s = .next s := rfl

/-- A run of calls whose first call answers a next state goes on from it. -/
theorem runCalls_cons {c : Call} {s t : State} (h : applyCall c s = .next t) (cs : List Call) :
    runCalls (c :: cs) s = runCalls cs t := by
  simp [runCalls, h]

/-- A property every call keeps holds after any run of calls. -/
theorem runCalls_keeps {P : State → Prop} (hP : ∀ c s t, P s → applyCall c s = .next t → P t)
    (hN : ∀ c s, ∃ t, applyCall c s = .next t) {s : State} (hs : P s) (cs : List Call) :
    ∃ t, runCalls cs s = .next t ∧ P t := by
  induction cs generalizing s with
  | nil => exact ⟨s, rfl, hs⟩
  | cons c cs ih =>
    obtain ⟨t, ht⟩ := hN c s
    obtain ⟨u, hu, hPu⟩ := ih (hP c s t hs ht)
    exact ⟨u, by rw [runCalls_cons ht, hu], hPu⟩

end Sys2Proof.Machine
end

