-- ==== Sys2Proof/Laws/Exec.lean ====
section
/-!
SUPPORT. The instructions that can fault, and the driver's calls, turned round: everything their answer can be. Provers
cite these instead of unfolding the meanings.
-/

namespace Sys2Proof.Machine

/-- `RET` underflows or pops (R116). -/
theorem execRet_cases {s t : State} (h : execRet s = .next t) :
    (s.stack = [] ∧ t = { s with fault := some (.stackUnderflow s.pc), ret := .fault (.stackUnderflow s.pc) }) ∨
      ∃ a rest, s.stack = a :: rest ∧ t = { s with pc := a, stack := rest, ret := .ok .none } := by
  unfold execRet at h
  split at h
  · next hs => exact .inl ⟨hs, by simpa using h⟩
  · next a rest hs => exact .inr ⟨a, rest, hs, by simpa using h⟩

/-- Without a stack limit `CALL` always pushes and jumps (R118, decision D18). -/
theorem execCall_next (nnn : Addr12) (s : State) :
    execCall nnn s = .next { s with stack := (s.pc + 2) :: s.stack, pc := addrOperand nnn, ret := .ok .none } := by
  simp [execCall, callWithLimit, Config.stackLimit, complete]

/-- `BCD` stores its three digits or faults, nothing stored (R153). -/
theorem execBcd_cases {s t : State} {x : RegIdx} (h : execBcd x s = .next t) :
    (s.I.toNat + 2 ≤ 4095 ∧ t = { s with
      mem := Memory.writeRun s.mem s.I.toNat (bcdDigits (s.getV x)), pc := s.pc + 2, ret := .ok .none }) ∨
    (4095 < s.I.toNat + 2 ∧ t = { s with
      fault := some (.memOutOfBounds (max s.I.toNat 4096)), ret := .fault (.memOutOfBounds (max s.I.toNat 4096)) }) := by
  rcases withRun_cases 2 s (fun s =>
    complete { s.advance with mem := Memory.writeRun s.mem s.I.toNat (bcdDigits (s.getV x)) }) with ⟨hf, e⟩ | ⟨hf, e⟩ <;>
    rw [execBcd, e] at h
  · exact .inl ⟨hf, by simpa [State.advance] using h⟩
  · exact .inr ⟨hf, by simpa using h⟩

/-- `STM` stores its registers or faults, nothing stored (R154). -/
theorem execStm_cases {s t : State} {x : RegIdx} (h : execStm x s = .next t) :
    (s.I.toNat + x.val ≤ 4095 ∧ t = { s with
      mem := Memory.writeRun s.mem s.I.toNat (s.regsUpTo x), pc := s.pc + 2,
      I := if s.indexQuirk then s.I else s.I + BitVec.ofNat 16 (x.val + 1), ret := .ok .none }) ∨
    (4095 < s.I.toNat + x.val ∧ t = { s with
      fault := some (.memOutOfBounds (max s.I.toNat 4096)), ret := .fault (.memOutOfBounds (max s.I.toNat 4096)) }) := by
  rcases withRun_cases x.val s (fun s => complete
    ({ s.advance with mem := Memory.writeRun s.mem s.I.toNat (s.regsUpTo x) }.bulkIndex x)) with ⟨hf, e⟩ | ⟨hf, e⟩ <;>
    rw [execStm, e] at h
  · exact .inl ⟨hf, by simpa only [State.bulkIndex_eq, complete_eq_next, State.advance] using h⟩
  · exact .inr ⟨hf, by simpa using h⟩

/-- `LDM` loads its registers or faults, no register written (R155). -/
theorem execLdm_cases {s t : State} {x : RegIdx} (h : execLdm x s = .next t) :
    (s.I.toNat + x.val ≤ 4095 ∧ t = { s with
      V := s.loadedRegs x, pc := s.pc + 2,
      I := if s.indexQuirk then s.I else s.I + BitVec.ofNat 16 (x.val + 1), ret := .ok .none }) ∨
    (4095 < s.I.toNat + x.val ∧ t = { s with
      fault := some (.memOutOfBounds (max s.I.toNat 4096)), ret := .fault (.memOutOfBounds (max s.I.toNat 4096)) }) := by
  rcases withRun_cases x.val s (fun s => complete
    ({ s.advance with V := s.loadedRegs x }.bulkIndex x)) with ⟨hf, e⟩ | ⟨hf, e⟩ <;>
    rw [execLdm, e] at h
  · exact .inl ⟨hf, by simpa only [State.bulkIndex_eq, complete_eq_next, State.advance] using h⟩
  · exact .inr ⟨hf, by simpa using h⟩

/-- `STM x` stores x + 1 bytes. -/
@[simp] theorem State.regsUpTo_length (s : State) (x : RegIdx) : (s.regsUpTo x).length = x.val + 1 := by
  have := x.isLt
  simp [State.regsUpTo]

/-- `BCD` stores three bytes. -/
@[simp] theorem bcdDigits_length (v : Byte) : (bcdDigits v).length = 3 := rfl

/-- `tick()` changes the two timers only (R163). -/
theorem tick_eq (s : State) : tick s = { s with dt := (tick s).dt, st := (tick s).st } := by
  unfold tick; split <;> rfl

/-- `deliver_key` changes V and halted only (R176). -/
theorem deliverKey_eq (x : RegIdx) (k : Byte) (s : State) :
    deliverKey x k s = { s with V := (deliverKey x k s).V, halted := (deliverKey x k s).halted } := by
  unfold deliverKey
  split
  · rfl
  · split <;> rfl

/-- A call the host of R181 makes is a call of the driver on the core, or the refusal of a delivery for another register
than the pending one (R181, U11). -/
theorem hostedCall_cases (c : Call) (h : Hosted) :
    (∃ x k y, c = .deliverKey x k ∧ h.pending = some y ∧ x ≠ y ∧
      hostedCall c h = .refused (.keyForAnotherRegister x)) ∨
    (∀ u, hostedCall c h = .next u → applyCall c h.core = .next u.core) := by
  cases c with
  | step =>
    refine .inr fun u hu => ?_
    simp only [hostedCall] at hu
    split at hu <;> cases hu
    next t ht => exact ht
  | tick => exact .inr fun u hu => by simp only [hostedCall] at hu; cases hu; rfl
  | deliverKey x k =>
    cases hp : h.pending with
    | none => exact .inr fun u hu => by simp [hostedCall, deliveryAllowed, hp] at hu; cases hu; rfl
    | some y =>
      by_cases hxy : x = y
      · exact .inr fun u hu => by simp [hostedCall, deliveryAllowed, hp, hxy] at hu; cases hu; simp [applyCall, hxy]
      · exact .inl ⟨x, k, y, rfl, rfl, hxy, by simp [hostedCall, deliveryAllowed, hp, hxy]⟩

end Sys2Proof.Machine
end

