-- ==== Sys2Proof/Laws/PerInstr.lean ====
section
/-!
SUPPORT. Statements for all instructions, one lemma per constructor. Family `Canonical`: an instruction is well formed
(rule R87), and its word is exactly the sum of R90, no operand spilling out of 16 bits.
-/

namespace Sys2Proof.Laws.Canonical

/-- An instruction is well formed, and its word is the sum R90 gives for its format, in full. -/
def Statement (i : Instr) : Prop :=
  i.wf = true ∧ (encode i).toNat = i.op.format.place i.op.code.toNat i.operands

/-- A word is its sum when the sum fits 16 bits. -/
theorem word_toNat (o : Op) (vs : List Nat) (h : o.format.place o.code.toNat vs < 65536) :
    (o.word vs).toNat = o.format.place o.code.toNat vs := by
  rw [Op.word, BitVec.toNat_ofNat]; exact Nat.mod_eq_of_lt h

/-- The row of a mnemonic is found again. -/
theorem ofMnemonic_mnemonic (o : Op) : Op.ofMnemonic? o.mnemonic = some o := by
  cases o <;> decide

/-- Well-formedness is the check of the operands against the row's format. -/
theorem wf_of_check (i : Instr) (h : i.op.format.check i.operands = none) : i.wf = true := by
  simp [Instr.wf, SourceInstr.wf, SourceInstr.problem, Instr.source, ofMnemonic_mnemonic, h]

theorem cls : Statement (.cls) := by
  exact ⟨by decide, by decide⟩

theorem ret : Statement (.ret) := by
  exact ⟨by decide, by decide⟩

theorem jp (nnn : Addr12) : Statement (.jp nnn) := by
  have hnnn := nnn.isLt
  refine ⟨wf_of_check _ ?_, word_toNat _ _ ?_⟩
  · simp [Instr.op, Op.format, Instr.operands, Format.check, Format.limits, operandsFit]; omega
  · simp [Instr.op, Op.format, Instr.operands, Format.place, Op.code]; omega

theorem call (nnn : Addr12) : Statement (.call nnn) := by
  have hnnn := nnn.isLt
  refine ⟨wf_of_check _ ?_, word_toNat _ _ ?_⟩
  · simp [Instr.op, Op.format, Instr.operands, Format.check, Format.limits, operandsFit]; omega
  · simp [Instr.op, Op.format, Instr.operands, Format.place, Op.code]; omega

theorem se (x : RegIdx) (nn : Byte) : Statement (.se x nn) := by
  have hx := x.isLt
  have hnn := nn.isLt
  refine ⟨wf_of_check _ ?_, word_toNat _ _ ?_⟩
  · simp [Instr.op, Op.format, Instr.operands, Format.check, Format.limits, operandsFit]; omega
  · simp [Instr.op, Op.format, Instr.operands, Format.place, Op.code]; omega

theorem sne (x : RegIdx) (nn : Byte) : Statement (.sne x nn) := by
  have hx := x.isLt
  have hnn := nn.isLt
  refine ⟨wf_of_check _ ?_, word_toNat _ _ ?_⟩
  · simp [Instr.op, Op.format, Instr.operands, Format.check, Format.limits, operandsFit]; omega
  · simp [Instr.op, Op.format, Instr.operands, Format.place, Op.code]; omega

theorem ser (x : RegIdx) (y : RegIdx) : Statement (.ser x y) := by
  have hx := x.isLt
  have hy := y.isLt
  refine ⟨wf_of_check _ ?_, word_toNat _ _ ?_⟩
  · simp [Instr.op, Op.format, Instr.operands, Format.check, Format.limits, operandsFit]
  · simp [Instr.op, Op.format, Instr.operands, Format.place, Op.code]; omega

theorem ld (x : RegIdx) (nn : Byte) : Statement (.ld x nn) := by
  have hx := x.isLt
  have hnn := nn.isLt
  refine ⟨wf_of_check _ ?_, word_toNat _ _ ?_⟩
  · simp [Instr.op, Op.format, Instr.operands, Format.check, Format.limits, operandsFit]; omega
  · simp [Instr.op, Op.format, Instr.operands, Format.place, Op.code]; omega

theorem add (x : RegIdx) (nn : Byte) : Statement (.add x nn) := by
  have hx := x.isLt
  have hnn := nn.isLt
  refine ⟨wf_of_check _ ?_, word_toNat _ _ ?_⟩
  · simp [Instr.op, Op.format, Instr.operands, Format.check, Format.limits, operandsFit]; omega
  · simp [Instr.op, Op.format, Instr.operands, Format.place, Op.code]; omega

theorem mov (x : RegIdx) (y : RegIdx) : Statement (.mov x y) := by
  have hx := x.isLt
  have hy := y.isLt
  refine ⟨wf_of_check _ ?_, word_toNat _ _ ?_⟩
  · simp [Instr.op, Op.format, Instr.operands, Format.check, Format.limits, operandsFit]
  · simp [Instr.op, Op.format, Instr.operands, Format.place, Op.code]; omega

theorem or (x : RegIdx) (y : RegIdx) : Statement (.or x y) := by
  have hx := x.isLt
  have hy := y.isLt
  refine ⟨wf_of_check _ ?_, word_toNat _ _ ?_⟩
  · simp [Instr.op, Op.format, Instr.operands, Format.check, Format.limits, operandsFit]
  · simp [Instr.op, Op.format, Instr.operands, Format.place, Op.code]; omega

theorem and (x : RegIdx) (y : RegIdx) : Statement (.and x y) := by
  have hx := x.isLt
  have hy := y.isLt
  refine ⟨wf_of_check _ ?_, word_toNat _ _ ?_⟩
  · simp [Instr.op, Op.format, Instr.operands, Format.check, Format.limits, operandsFit]
  · simp [Instr.op, Op.format, Instr.operands, Format.place, Op.code]; omega

theorem xor (x : RegIdx) (y : RegIdx) : Statement (.xor x y) := by
  have hx := x.isLt
  have hy := y.isLt
  refine ⟨wf_of_check _ ?_, word_toNat _ _ ?_⟩
  · simp [Instr.op, Op.format, Instr.operands, Format.check, Format.limits, operandsFit]
  · simp [Instr.op, Op.format, Instr.operands, Format.place, Op.code]; omega

theorem addr (x : RegIdx) (y : RegIdx) : Statement (.addr x y) := by
  have hx := x.isLt
  have hy := y.isLt
  refine ⟨wf_of_check _ ?_, word_toNat _ _ ?_⟩
  · simp [Instr.op, Op.format, Instr.operands, Format.check, Format.limits, operandsFit]
  · simp [Instr.op, Op.format, Instr.operands, Format.place, Op.code]; omega

theorem sub (x : RegIdx) (y : RegIdx) : Statement (.sub x y) := by
  have hx := x.isLt
  have hy := y.isLt
  refine ⟨wf_of_check _ ?_, word_toNat _ _ ?_⟩
  · simp [Instr.op, Op.format, Instr.operands, Format.check, Format.limits, operandsFit]
  · simp [Instr.op, Op.format, Instr.operands, Format.place, Op.code]; omega

theorem shr (x : RegIdx) (y : RegIdx) : Statement (.shr x y) := by
  have hx := x.isLt
  have hy := y.isLt
  refine ⟨wf_of_check _ ?_, word_toNat _ _ ?_⟩
  · simp [Instr.op, Op.format, Instr.operands, Format.check, Format.limits, operandsFit]
  · simp [Instr.op, Op.format, Instr.operands, Format.place, Op.code]; omega

theorem subn (x : RegIdx) (y : RegIdx) : Statement (.subn x y) := by
  have hx := x.isLt
  have hy := y.isLt
  refine ⟨wf_of_check _ ?_, word_toNat _ _ ?_⟩
  · simp [Instr.op, Op.format, Instr.operands, Format.check, Format.limits, operandsFit]
  · simp [Instr.op, Op.format, Instr.operands, Format.place, Op.code]; omega

theorem shl (x : RegIdx) (y : RegIdx) : Statement (.shl x y) := by
  have hx := x.isLt
  have hy := y.isLt
  refine ⟨wf_of_check _ ?_, word_toNat _ _ ?_⟩
  · simp [Instr.op, Op.format, Instr.operands, Format.check, Format.limits, operandsFit]
  · simp [Instr.op, Op.format, Instr.operands, Format.place, Op.code]; omega

theorem sner (x : RegIdx) (y : RegIdx) : Statement (.sner x y) := by
  have hx := x.isLt
  have hy := y.isLt
  refine ⟨wf_of_check _ ?_, word_toNat _ _ ?_⟩
  · simp [Instr.op, Op.format, Instr.operands, Format.check, Format.limits, operandsFit]
  · simp [Instr.op, Op.format, Instr.operands, Format.place, Op.code]; omega

theorem ldi (nnn : Addr12) : Statement (.ldi nnn) := by
  have hnnn := nnn.isLt
  refine ⟨wf_of_check _ ?_, word_toNat _ _ ?_⟩
  · simp [Instr.op, Op.format, Instr.operands, Format.check, Format.limits, operandsFit]; omega
  · simp [Instr.op, Op.format, Instr.operands, Format.place, Op.code]; omega

theorem jpv (nnn : Addr12) : Statement (.jpv nnn) := by
  have hnnn := nnn.isLt
  refine ⟨wf_of_check _ ?_, word_toNat _ _ ?_⟩
  · simp [Instr.op, Op.format, Instr.operands, Format.check, Format.limits, operandsFit]; omega
  · simp [Instr.op, Op.format, Instr.operands, Format.place, Op.code]; omega

theorem rnd (x : RegIdx) (nn : Byte) : Statement (.rnd x nn) := by
  have hx := x.isLt
  have hnn := nn.isLt
  refine ⟨wf_of_check _ ?_, word_toNat _ _ ?_⟩
  · simp [Instr.op, Op.format, Instr.operands, Format.check, Format.limits, operandsFit]; omega
  · simp [Instr.op, Op.format, Instr.operands, Format.place, Op.code]; omega

theorem drw (x : RegIdx) (y : RegIdx) (n : Nibble) : Statement (.drw x y n) := by
  have hx := x.isLt
  have hy := y.isLt
  have hn := n.isLt
  refine ⟨wf_of_check _ ?_, word_toNat _ _ ?_⟩
  · simp [Instr.op, Op.format, Instr.operands, Format.check, Format.limits, operandsFit]; omega
  · simp [Instr.op, Op.format, Instr.operands, Format.place, Op.code]; omega

theorem skp (x : RegIdx) : Statement (.skp x) := by
  have hx := x.isLt
  refine ⟨wf_of_check _ ?_, word_toNat _ _ ?_⟩
  · simp [Instr.op, Op.format, Instr.operands, Format.check, Format.limits, operandsFit]
  · simp [Instr.op, Op.format, Instr.operands, Format.place, Op.code]; omega

theorem sknp (x : RegIdx) : Statement (.sknp x) := by
  have hx := x.isLt
  refine ⟨wf_of_check _ ?_, word_toNat _ _ ?_⟩
  · simp [Instr.op, Op.format, Instr.operands, Format.check, Format.limits, operandsFit]
  · simp [Instr.op, Op.format, Instr.operands, Format.place, Op.code]; omega

theorem gdt (x : RegIdx) : Statement (.gdt x) := by
  have hx := x.isLt
  refine ⟨wf_of_check _ ?_, word_toNat _ _ ?_⟩
  · simp [Instr.op, Op.format, Instr.operands, Format.check, Format.limits, operandsFit]
  · simp [Instr.op, Op.format, Instr.operands, Format.place, Op.code]; omega

theorem wkey (x : RegIdx) : Statement (.wkey x) := by
  have hx := x.isLt
  refine ⟨wf_of_check _ ?_, word_toNat _ _ ?_⟩
  · simp [Instr.op, Op.format, Instr.operands, Format.check, Format.limits, operandsFit]
  · simp [Instr.op, Op.format, Instr.operands, Format.place, Op.code]; omega

theorem sdt (x : RegIdx) : Statement (.sdt x) := by
  have hx := x.isLt
  refine ⟨wf_of_check _ ?_, word_toNat _ _ ?_⟩
  · simp [Instr.op, Op.format, Instr.operands, Format.check, Format.limits, operandsFit]
  · simp [Instr.op, Op.format, Instr.operands, Format.place, Op.code]; omega

theorem sst (x : RegIdx) : Statement (.sst x) := by
  have hx := x.isLt
  refine ⟨wf_of_check _ ?_, word_toNat _ _ ?_⟩
  · simp [Instr.op, Op.format, Instr.operands, Format.check, Format.limits, operandsFit]
  · simp [Instr.op, Op.format, Instr.operands, Format.place, Op.code]; omega

theorem addi (x : RegIdx) : Statement (.addi x) := by
  have hx := x.isLt
  refine ⟨wf_of_check _ ?_, word_toNat _ _ ?_⟩
  · simp [Instr.op, Op.format, Instr.operands, Format.check, Format.limits, operandsFit]
  · simp [Instr.op, Op.format, Instr.operands, Format.place, Op.code]; omega

theorem font (x : RegIdx) : Statement (.font x) := by
  have hx := x.isLt
  refine ⟨wf_of_check _ ?_, word_toNat _ _ ?_⟩
  · simp [Instr.op, Op.format, Instr.operands, Format.check, Format.limits, operandsFit]
  · simp [Instr.op, Op.format, Instr.operands, Format.place, Op.code]; omega

theorem bcd (x : RegIdx) : Statement (.bcd x) := by
  have hx := x.isLt
  refine ⟨wf_of_check _ ?_, word_toNat _ _ ?_⟩
  · simp [Instr.op, Op.format, Instr.operands, Format.check, Format.limits, operandsFit]
  · simp [Instr.op, Op.format, Instr.operands, Format.place, Op.code]; omega

theorem stm (x : RegIdx) : Statement (.stm x) := by
  have hx := x.isLt
  refine ⟨wf_of_check _ ?_, word_toNat _ _ ?_⟩
  · simp [Instr.op, Op.format, Instr.operands, Format.check, Format.limits, operandsFit]
  · simp [Instr.op, Op.format, Instr.operands, Format.place, Op.code]; omega

theorem ldm (x : RegIdx) : Statement (.ldm x) := by
  have hx := x.isLt
  refine ⟨wf_of_check _ ?_, word_toNat _ _ ?_⟩
  · simp [Instr.op, Op.format, Instr.operands, Format.check, Format.limits, operandsFit]
  · simp [Instr.op, Op.format, Instr.operands, Format.place, Op.code]; omega

end Sys2Proof.Laws.Canonical
end

