-- ==== Sys2Proof/Tests/Slice0.lean ====
section
/-!
SUPPORT. The model's own tests. Expected results come from spec/95_test_vectors.md (S<n>, T<n>) and from the encodings of
spec/30_encoding.md; and, for every statement with hypotheses, a concrete input that meets them all.
-/

namespace Sys2Proof.Tests

open Sys2Proof.Machine Sys2Proof.Claims

/-! ### Helpers -/

/-- The construction state with a word at pc0 = 512. -/
def start (w : Nat) : State := State.reset.withFetchWord 16 w

/-- A field of the state an outcome goes on with. -/
def peek {α : Type} (f : State → α) : Result → Option α
  | .next t => some (f t)
  | .fault _ => none
  | .refused _ => none

/-- An outcome with a next state is that next state. -/
theorem next_of_peek {o : Result} {t : State} (h : peek id o = some t) : o = .next t := by
  cases o with
  | next u => exact congrArg _ (Option.some.inj h)
  | fault r => cases h
  | refused r => cases h

/-- The registers `i`, `j` and pc. -/
def regs (i j : RegIdx) (t : State) : Byte × Byte × Word := (t.getV i, t.getV j, t.pc)

/-- A word written out nibble by nibble, as spec/30_encoding.md writes its patterns. -/
def nibbles (a b c d : BitVec 4) : Word := a ++ b ++ c ++ d

/-! ### WellFormed refuses what breaks each of its checks (R87; T102, T103) -/

theorem test_wf_unknown_mnemonic : (SourceInstr.mk "FOO" [1]).problem = some .unknownMnemonic := by decide
theorem test_wf_lower_case : (SourceInstr.mk "call" [1]).wf = false := by decide
theorem test_wf_too_few : (SourceInstr.mk "LD" [1]).problem = some .operandCount := by decide
theorem test_wf_too_many : (SourceInstr.mk "CLS" [1]).problem = some .operandCount := by decide
theorem test_wf_register_range : (SourceInstr.mk "LD" [16, 0]).problem = some .operandRange := by decide
theorem test_wf_byte_range : (SourceInstr.mk "LD" [0, 256]).problem = some .operandRange := by decide
theorem test_wf_address_range : (SourceInstr.mk "JP" [4096]).problem = some .operandRange := by decide
theorem test_wf_nibble_range : (SourceInstr.mk "DRW" [1, 2, 16]).problem = some .operandRange := by decide
theorem test_wf_accepts_largest : (SourceInstr.mk "DRW" [15, 15, 15]).wf = true := by decide

/-! ### Decoding: one word per constructor, written out from its pattern (R74, R76) -/

theorem test_decode_cls : decode (nibbles 0b0000 0b0000 0b1110 0b0000) = .instr .cls := by decide
theorem test_decode_ret : decode (nibbles 0b0000 0b0000 0b1110 0b1110) = .instr .ret := by decide
theorem test_decode_jp : decode (nibbles 0b0001 0b1000 0b0000 0b0001) = .instr (.jp 0x801) := by decide
theorem test_decode_call : decode (nibbles 0b0010 0b1111 0b0001 0b1110) = .instr (.call 0xF1E) := by decide
theorem test_decode_se : decode (nibbles 0b0011 0b1010 0b0101 0b1100) = .instr (.se 10 0x5C) := by decide
theorem test_decode_sne : decode (nibbles 0b0100 0b0111 0b1000 0b0011) = .instr (.sne 7 0x83) := by decide
theorem test_decode_ser : decode (nibbles 0b0101 0b0011 0b0100 0b0000) = .instr (.ser 3 4) := by decide
theorem test_decode_ser_any_f4 : decode (nibbles 0b0101 0b0011 0b0100 0b1011) = .instr (.ser 3 4) := by decide
theorem test_decode_ld : decode (nibbles 0b0110 0b1010 0b0000 0b1111) = .instr (.ld 10 15) := by decide
theorem test_decode_add : decode (nibbles 0b0111 0b0001 0b1111 0b1110) = .instr (.add 1 0xFE) := by decide
theorem test_decode_mov : decode (nibbles 0b1000 0b0001 0b0010 0b0000) = .instr (.mov 1 2) := by decide
theorem test_decode_or : decode (nibbles 0b1000 0b0001 0b0010 0b0001) = .instr (.or 1 2) := by decide
theorem test_decode_and : decode (nibbles 0b1000 0b0001 0b0010 0b0010) = .instr (.and 1 2) := by decide
theorem test_decode_xor : decode (nibbles 0b1000 0b0001 0b0010 0b0011) = .instr (.xor 1 2) := by decide
theorem test_decode_addr : decode (nibbles 0b1000 0b0001 0b0010 0b0100) = .instr (.addr 1 2) := by decide
theorem test_decode_sub : decode (nibbles 0b1000 0b0001 0b0010 0b0101) = .instr (.sub 1 2) := by decide
theorem test_decode_shr : decode (nibbles 0b1000 0b0001 0b0010 0b0110) = .instr (.shr 1 2) := by decide
theorem test_decode_subn : decode (nibbles 0b1000 0b0001 0b0010 0b0111) = .instr (.subn 1 2) := by decide
theorem test_decode_shl : decode (nibbles 0b1000 0b0001 0b0010 0b1110) = .instr (.shl 1 2) := by decide
theorem test_decode_sner : decode (nibbles 0b1001 0b0011 0b0100 0b0000) = .instr (.sner 3 4) := by decide
theorem test_decode_ldi : decode (nibbles 0b1010 0b0011 0b0000 0b0001) = .instr (.ldi 0x301) := by decide
theorem test_decode_jpv : decode (nibbles 0b1011 0b1111 0b1110 0b0001) = .instr (.jpv 0xFE1) := by decide
theorem test_decode_rnd : decode (nibbles 0b1100 0b0011 0b0000 0b1111) = .instr (.rnd 3 15) := by decide
theorem test_decode_drw : decode (nibbles 0b1101 0b0001 0b0010 0b0101) = .instr (.drw 1 2 5) := by decide
theorem test_decode_skp : decode (nibbles 0b1110 0b0011 0b1001 0b1110) = .instr (.skp 3) := by decide
theorem test_decode_sknp : decode (nibbles 0b1110 0b0011 0b1010 0b0001) = .instr (.sknp 3) := by decide
theorem test_decode_gdt : decode (nibbles 0b1111 0b0101 0b0000 0b0111) = .instr (.gdt 5) := by decide
theorem test_decode_wkey : decode (nibbles 0b1111 0b0100 0b0000 0b1010) = .instr (.wkey 4) := by decide
theorem test_decode_sdt : decode (nibbles 0b1111 0b0011 0b0001 0b0101) = .instr (.sdt 3) := by decide
theorem test_decode_sst : decode (nibbles 0b1111 0b0110 0b0001 0b1000) = .instr (.sst 6) := by decide
theorem test_decode_addi : decode (nibbles 0b1111 0b0010 0b0001 0b1110) = .instr (.addi 2) := by decide
theorem test_decode_font : decode (nibbles 0b1111 0b0100 0b0010 0b1001) = .instr (.font 4) := by decide
theorem test_decode_bcd : decode (nibbles 0b1111 0b1001 0b0011 0b0011) = .instr (.bcd 9) := by decide
theorem test_decode_stm : decode (nibbles 0b1111 0b1111 0b0101 0b0101) = .instr (.stm 15) := by decide
theorem test_decode_ldm : decode (nibbles 0b1111 0b0010 0b0110 0b0101) = .instr (.ldm 2) := by decide

/-- The undefined words of T93 and T92. -/
theorem test_decode_undefined :
    [0x0000, 0x0123, 0x00E1, 0x01E0, 0xE09F, 0xE000, 0xF000, 0xF0FF, 0xF175, 0x8018].map decode =
      [.undefined .group0, .undefined .group0, .undefined .group0, .undefined .group0, .undefined .groupE,
       .undefined .groupE, .undefined .groupF, .undefined .groupF, .undefined .groupF, .undefined .group8] := by decide

theorem test_decodeBytes_rest : decodeBytes [0x61, 0x05, 0x12] = .ok (.ld 1 5, [0x12]) := by decide
theorem test_decodeBytes_short : decodeBytes [0x61] = .error .tooShort := by decide
theorem test_decodeTableWord : decodeTableWord 16 0x8015 = some (.sub 0 1) := by decide

/-- The bytes of R90: the high byte first. -/
theorem test_encode_bytes : encodeBytes (.call 522) = [0x22, 0x0A] := by decide

/-! ### Control transfer -/

theorem test_jp : peek (·.pc) (step (start 0x1204)) = some 516 := by decide                       -- T1
theorem test_ret_underflow :                                                                      -- T3
    step (start 0x00EE) = .next { start 0x00EE with
      fault := some (.stackUnderflow 512), ret := .fault (.stackUnderflow 512) } := next_of_peek (by decide)
theorem test_ret_pops :                                                                           -- T4
    peek (fun t => (t.pc, t.stack)) (step { start 0x00EE with stack := [700, 518] }) =
      some (700, [518]) := by decide
theorem test_call : peek (fun t => (t.pc, t.stack)) (step (start 0x2FFF)) = some (4095, [514]) := by decide -- T5
theorem test_call_at_limit :                                                                      -- R118
    peek (·.fault) (callWithLimit (some 0) 768 (start 0)) = some (some (.stackOverflow 512)) := by decide
theorem test_jpv : peek (·.pc) (step ((start 0xB300).setV 0 4)) = some 772 := by decide           -- T6
theorem test_jpv_beyond : peek (·.pc) (step ((start 0xBFFF).setV 0 255)) = some 4350 := by decide -- T7
theorem test_se_taken : peek (·.pc) (step (start 0x3100)) = some 516 := by decide                 -- T8
theorem test_se_not : peek (·.pc) (step ((start 0x3100).setV 1 1)) = some 514 := by decide        -- T9
theorem test_sne_not : peek (·.pc) (step ((start 0x4205).setV 2 5)) = some 514 := by decide       -- T10
theorem test_sne_taken : peek (·.pc) (step ((start 0x4206).setV 2 5)) = some 516 := by decide     -- T11
theorem test_ser_taken :                                                                          -- T15
    peek (·.pc) (step (((start 0x534B).setV 3 9).setV 4 9)) = some 516 := by decide
theorem test_ser_not :                                                                            -- T13
    peek (·.pc) (step (((start 0x5340).setV 3 9).setV 4 8)) = some 514 := by decide
theorem test_sner_taken :                                                                         -- T16
    peek (·.pc) (step (((start 0x9340).setV 3 9).setV 4 8)) = some 516 := by decide
theorem test_sner_not :                                                                           -- T17
    peek (·.pc) (step (((start 0x9340).setV 3 9).setV 4 9)) = some 514 := by decide

/-! ### Load, arithmetic, logic, shift, random -/

theorem test_ld : peek (regs 15 0) (step (start 0x6FAB)) = some (171, 0, 514) := by decide        -- T20
theorem test_add_no_flag :                                                                        -- T21
    peek (regs 0 15) (step (((start 0x700A).setV 0 250).setV 15 7)) = some (4, 7, 514) := by decide
theorem test_mov :                                                                                -- T23
    peek (regs 1 15) (step (((start 0x8120).setV 2 7).setV 15 9)) = some (7, 9, 514) := by decide
theorem test_or :                                                                                 -- T24
    peek (regs 0 15) (step ((((start 0x8011).setV 0 0xF0).setV 1 0x3C).setV 15 9)) =
      some (0xFC, 9, 514) := by decide
theorem test_and :                                                                                -- T25
    peek (regs 0 15) (step ((((start 0x8012).setV 0 0xF0).setV 1 0x3C).setV 15 9)) =
      some (0x30, 9, 514) := by decide
theorem test_xor :                                                                                -- T26
    peek (regs 0 15) (step ((((start 0x8013).setV 0 0xF0).setV 1 0x3C).setV 15 9)) =
      some (0xCC, 9, 514) := by decide
theorem test_addr_carry :                                                                         -- S1
    peek (regs 0 15) (step (((start 0x8014).setV 0 250).setV 1 10)) = some (4, 1, 514) := by decide
theorem test_addr_result_wins :                                                                   -- T31
    peek (regs 15 0) (step (((start 0x8F04).setV 15 200).setV 0 100)) = some (44, 100, 514) := by decide
theorem test_sub_borrow :                                                                         -- S3
    peek (regs 0 15) (step (((start 0x8015).setV 0 5).setV 1 10)) = some (251, 0, 514) := by decide
theorem test_sub_reads_flag_register :                                                            -- T35
    peek (regs 0 15) (step (((start 0x80F5).setV 0 5).setV 15 1)) = some (4, 1, 514) := by decide
theorem test_subn :                                                                               -- T36
    peek (regs 1 15) (step (((start 0x8107).setV 1 10).setV 0 244)) = some (234, 1, 514) := by decide
theorem test_subn_borrow :                                                                        -- T37
    peek (regs 1 15) (step (((start 0x8107).setV 1 10).setV 0 3)) = some (249, 0, 514) := by decide
theorem test_shr :                                                                                -- S5
    peek (regs 0 15) (step ((start 0x8016).setV 1 129)) = some (64, 1, 514) := by decide
theorem test_shr_in_place :                                                                       -- S6
    peek (regs 0 15) (step { ((start 0x8016).setV 0 6).setV 1 129 with shiftQuirk := true }) =
      some (3, 0, 514) := by decide
theorem test_shl :                                                                                -- T44
    peek (regs 0 15) (step (((start 0x801E).setV 0 0x40).setV 1 0xFF)) = some (0xFE, 1, 514) := by decide
theorem test_shl_in_place :                                                                       -- T43
    peek (regs 0 15) (step { ((start 0x801E).setV 0 0x40).setV 1 0xFF with shiftQuirk := true }) =
      some (0x80, 0, 514) := by decide
theorem test_rnd : peek (regs 3 0) (rndWith 0xB7 3 0x0F (start 0)) = some (7, 0, 514) := by decide -- T46
theorem test_rnd_zero_mask : peek (regs 3 0) (rndWith 0xFF 3 0 (start 0)) = some (0, 0, 514) := by decide -- T47

/-! ### Index register and memory -/

theorem test_ldi : peek (·.I) (step (start 0xA300)) = some 768 := by decide                       -- T50
theorem test_addi_flag :                                                                          -- T52
    peek (fun t => (t.I, t.getV 15)) (step { (start 0xF21E).setV 2 10 with I := 4090 }) =
      some (4100, 1) := by decide
theorem test_addi_wraps :                                                                         -- T54
    peek (fun t => (t.I, t.getV 15)) (step { (start 0xF21E).setV 2 1 with I := 65535 }) =
      some (0, 0) := by decide
theorem test_font : peek (·.I) (step ((start 0xF429).setV 4 10)) = some 50 := by decide           -- T56
theorem test_font_unmasked : peek (·.I) (step ((start 0xF429).setV 4 255)) = some 1275 := by decide -- T57
theorem test_bcd :                                                                                -- T60
    peek (fun t => [4093, 4094, 4095].map (Memory.read t.mem)) (step { (start 0xF033).setV 0 255 with I := 4093 }) =
      some [2, 5, 5] := by decide
theorem test_bcd_faults :                                                                         -- T61
    peek (fun t => (t.fault, t.pc, Memory.read t.mem 4094)) (step { (start 0xF033).setV 0 255 with I := 4094 }) =
      some (some (.memOutOfBounds 4096), 512, 0) := by decide
theorem test_stm :                                                                                -- T63
    peek (fun t => ([768, 769, 770, 771, 772].map (Memory.read t.mem), t.I))
      (step { ((((start 0xF355).setV 0 1).setV 1 2).setV 2 3).setV 3 4 with I := 768 }) =
      some ([1, 2, 3, 4, 0], 772) := by decide
theorem test_stm_quirk_keeps_index :                                                              -- S8, T64
    peek (·.I) (step { start 0xF355 with I := 768, indexQuirk := true }) = some 768 := by decide
theorem test_ldm_font :                                                                           -- T69
    peek (fun t => ([0, 1, 4, 5].map t.getV, t.I)) (step (start 0xF465)) =
      some ([0xF0, 0x90, 0xF0, 0], 5) := by decide
theorem test_ldm_faults :                                                                         -- T70
    peek (fun t => (t.fault, t.getV 0, t.I)) (step { (start 0xFF65).setV 0 1 with I := 4090 }) =
      some (some (.memOutOfBounds 4096), 1, 4090) := by decide

/-! ### Timers -/

theorem test_gdt : peek (regs 5 0) (step { start 0xF507 with dt := 1 }) = some (1, 0, 514) := by decide -- T73
theorem test_sdt : peek (·.dt) (step ((start 0xF315).setV 3 2)) = some 2 := by decide             -- T71
theorem test_sst : peek (·.st) (step ((start 0xF018).setV 0 30)) = some 30 := by decide           -- T72
theorem test_tick :                                                                               -- T74
    tick { State.reset with dt := 2, st := 1 } = { State.reset with dt := 1, st := 0 } := by decide
theorem test_tick_floor : tick State.reset = State.reset := by decide                             -- S7

/-! ### Host effects -/

theorem test_cls :                                                                                -- T80
    step (start 0x00E0) = .next { start 0x00E0 with pc := 514, ret := .ok .clearScreen } := next_of_peek (by decide)
theorem test_drw :                                                                                -- T81
    peek (fun t => (t.ret, t.getV 15, t.pc)) (step ((start 0xD125).setV 15 3)) =
      some (.ok (.drawSprite 1 2 5), 3, 514) := by decide
theorem test_skp_pressed :                                                                        -- T83
    peek (fun t => (t.ret, t.pc)) (keyQueryWith true 3 .ifPressed (start 0xE39E)) =
      some (.ok (.keyConditional 3 .ifPressed), 516) := by decide
theorem test_skp_not_pressed :                                                                    -- T84
    peek (fun t => (t.ret, t.pc)) (keyQueryWith false 3 .ifPressed (start 0xE39E)) =
      some (.ok (.keyConditional 3 .ifPressed), 514) := by decide
theorem test_sknp_not_pressed :                                                                   -- T85
    peek (fun t => (t.ret, t.pc)) (keyQueryWith false 3 .ifNotPressed (start 0xE3A1)) =
      some (.ok (.keyConditional 3 .ifNotPressed), 516) := by decide
theorem test_sknp_pressed :                                                                       -- T86
    peek (fun t => (t.ret, t.pc)) (keyQueryWith true 3 .ifNotPressed (start 0xE3A1)) =
      some (.ok (.keyConditional 3 .ifNotPressed), 514) := by decide
theorem test_wkey :                                                                               -- T87
    step ((start 0xF40A).setV 4 1) = .next { (start 0xF40A).setV 4 1 with
      pc := 514, halted := true, ret := .ok (.awaitKey 4) } := next_of_peek (by decide)
theorem test_deliverKey :                                                                         -- T89
    deliverKey 4 7 { State.reset with halted := true } = State.reset.setV 4 7 := by decide
theorem test_deliverKey_guard : deliverKey 4 7 State.reset = State.reset := by decide             -- T90

/-- A host that keeps its duties: the wrong register is refused (U11), the pending one resumes the core. -/
theorem test_hosted_refuses :
    hostedCall (.deliverKey 5 7) ⟨{ State.reset with halted := true }, some 4⟩ =
      .refused (.keyForAnotherRegister 5) := rfl
theorem test_hosted_delivers :
    hostedCall (.deliverKey 4 7) ⟨{ State.reset with halted := true }, some 4⟩ =
      .next ⟨State.reset.setV 4 7, none⟩ := rfl

/-- Rounds of the intended pattern (R247): a key for the pending register, fewer steps than allowed; too many steps. -/
theorem test_round :
    roundFrom 2 [.step, .deliverKey 4 7, .tick] ⟨start 0xF40A, none⟩ = true ∧
      roundFrom 2 [.step, .deliverKey 5 7, .tick] ⟨start 0xF40A, none⟩ = false ∧
      roundFrom 1 [.step, .step, .tick] ⟨start 0x1200, none⟩ = false := by decide

/-! ### The cycle and its gates -/

theorem test_undefined_word :                                                                     -- T93
    step (start 0xF175) = .next { start 0xF175 with pc := 514 } := next_of_peek (by decide)
theorem test_halted_before_fetch :                                                                -- T91
    step { State.reset with halted := true, pc := 5000 } =
      .next { State.reset with halted := true, pc := 5000 } := next_of_peek (by decide)
theorem test_fetch_fault :                                                                        -- T94
    peek (fun t => (t.fault, t.pc)) (step { State.reset with pc := 4095 }) =
      some (some (.fetchOutOfBounds 4095), 4095) := by decide
theorem test_odd_pc :                                                                             -- T18
    peek (·.pc) (step { State.reset with pc := 513, mem := [(513, 0x12), (514, 0x34)] }) =
      some 564 := by decide
theorem test_last_fetch :                                                                         -- T19
    peek (fun t => (t.ret, t.pc)) (step { State.reset with pc := 4094, mem := [(4095, 0xE0)] }) =
      some (.ok .clearScreen, 4096) := by decide
theorem test_faulted_step :                                                                       -- T95
    step { State.reset with fault := some (.stackUnderflow 512) } =
      .next { State.reset with fault := some (.stackUnderflow 512) } := next_of_peek (by decide)
theorem test_faulted_tick :                                                                       -- T78
    tick { State.reset with fault := some (.stackUnderflow 512), dt := 5 } =
      { State.reset with fault := some (.stackUnderflow 512), dt := 5 } := by decide

/-! ### Construction -/

theorem test_construct :                                                                          -- R240
    (construct true false [0x12, 0x00]).map (fun s =>
      (s.pc, s.shiftQuirk, s.indexQuirk, [5, 6, 79, 80, 511, 512, 513, 514].map (Memory.read s.mem))) =
      some (512, true, false, [0x20, 0x60, 0x80, 0, 0, 0x12, 0, 0]) := by decide
theorem test_memory_form :                                                                        -- log entry 32
    Memory.write (Memory.write [] 600 7) 600 0 = [] ∧ Memory.write [] 0 0xF0 = [] ∧
      Memory.write [] 4096 1 = [] := by decide

/-! ### Codec -/

theorem test_assemble_lexical :                                                                   -- T100
    assemble "  call 1\n\nFOO abc\n LD  007 , 0010 \n" = .ok [0, 0, 0, 0, 0x67, 0x0A] := by decide +kernel
theorem test_assemble_blank : assemble "\n \n\t\n" = .ok [] := by decide +kernel                  -- T101
theorem test_assemble_range :                                                                     -- T105
    assemble "JP 4096" = .error [⟨1, "JP", .operandRange⟩] := by decide +kernel
theorem test_assemble_count :                                                                     -- T103
    assemble "DRW 1,2" = .error [⟨1, "DRW", .operandCount⟩] := by decide +kernel
theorem test_assemble_parse :                                                                     -- T104
    assemble "LD 1,,2" = .error [⟨1, "LD", .operandParse⟩] := by decide +kernel
theorem test_assemble_all_failures :                                                              -- T106
    assemble "CLS\nLD 16,0\nRET\nJP x" =
      .error [⟨2, "LD", .operandRange⟩, ⟨4, "JP", .operandParse⟩] := by decide +kernel
theorem test_disassemble :                                                                        -- T107
    disassemble [0x00, 0x00, 0x53, 0x41, 0x53, 0x40, 0x8F, 0xE8, 0xE0, 0x9F, 0xF0, 0x65, 0xAA] =
      "\n\nSER 3,4\n\n\nLDM 0" := by decide +kernel
theorem test_disassemble_empty : disassemble [] = "" ∧ disassemble [0x12] = "" := by decide +kernel -- T108
theorem test_disassemble_subtracts :                                                              -- T109
    disassemble [0x80, 0x15, 0x80, 0x17] = "SUB 0,1\nSUBN 0,1" := by decide +kernel

/-- Part of T40: the lines with the shapes not met above. -/
theorem test_round_trip :
    assemble "RET\nSHL 0,0\nJPV 4095\nRND 3,15\nDRW 1,2,5\nWKEY 4\nSTM 15" =
      .ok [0x00, 0xEE, 0x80, 0x0E, 0xBF, 0xFF, 0xC3, 0x0F, 0xD1, 0x25, 0xF4, 0x0A, 0xFF, 0x55] ∧
    disassemble [0x00, 0xEE, 0x80, 0x0E, 0xBF, 0xFF, 0xC3, 0x0F, 0xD1, 0x25, 0xF4, 0x0A, 0xFF, 0x55] =
      "RET\nSHL 0,0\nJPV 4095\nRND 3,15\nDRW 1,2,5\nWKEY 4\nSTM 15" := by decide +kernel

/-! ### Witnesses: for each statement with hypotheses, an input that meets all of them

A theorem's name says which statement it is for, and which clause where there are several. -/

/-- A state ready to run the word `w`, with something in every field a hypothesis speaks of. -/
def busy (w : Nat) : State := { (((start w).setV 1 7).setV 2 200).setV 15 3 with I := 768, dt := 5, stack := [518] }

theorem witness_DecodeFollowsTheOpcodeTable :
    (0x8124 : Word) &&& Op.addr.mask = Op.addr.code ∧ decode 0x8124 = .instr (.addr 1 2) := by decide

theorem witness_UndefinedWordsAreNoOperations :
    decode 0x0000 = .undefined .group0 ∧ decode 0x800F = .undefined .group8 ∧
      decode 0xE09F = .undefined .groupE ∧ decode 0xF0FF = .undefined .groupF := by decide

theorem witness_StepRunsTheFetchedInstruction :
    (busy 0x8124).fault = none ∧ (busy 0x8124).halted = false ∧ (busy 0x8124).pc.toNat ≤ 4094 ∧
      decode (BitVec.ofNat 16 ((Memory.read (busy 0x8124).mem (busy 0x8124).pc.toNat).toNat * 256 +
        (Memory.read (busy 0x8124).mem ((busy 0x8124).pc.toNat + 1)).toNat)) = .instr (.addr 1 2) := by decide

/-- The same at the highest pc a fetch can have. -/
theorem witness_StepRunsTheFetchedInstruction_last :
    let s := State.withFetchWord { State.reset with pc := 4094 } 16 0x00E0
    s.fault = none ∧ s.halted = false ∧ s.pc.toNat = 4094 ∧
      decode (BitVec.ofNat 16 ((Memory.read s.mem s.pc.toNat).toNat * 256 +
        (Memory.read s.mem (s.pc.toNat + 1)).toNat)) = .instr .cls := by decide

theorem witness_PlacedWordRunsNext :
    decodeTableWord 16 0x8124 = some (.addr 1 2) ∧ decode (BitVec.ofNat 16 0x8124) = .instr (.addr 1 2) := by decide

theorem witness_HaltedStepChangesNothing : ({ State.reset with halted := true } : State).halted = true := by decide

theorem witness_UnusedGroup8SelectorsAreNoOperations :
    8 ∈ [8, 9, 10, 11, 12, 13, 15] ∧ 15 ∈ [8, 9, 10, 11, 12, 13, 15] := by decide

theorem witness_PcIsAdvancedBeforeExecution :
    (busy 0).getV 1 = 7 ∧ (busy 0).getV 1 ≠ 8 ∧ (busy 0).getV 3 = (busy 0).getV 4 ∧
      (busy 0).getV 1 ≠ (busy 0).getV 2 := by decide

theorem witness_PcAfterEveryStep_gated :
    let s : State := { busy 0x1204 with halted := true }
    step s = .next s ∧ (s.fault ≠ none ∨ s.halted = true) := ⟨next_of_peek (by decide), by decide⟩

theorem witness_PcAfterEveryStep_faulting :
    let s : State := { busy 0x00EE with stack := [] }
    let t : State := { s with fault := some (.stackUnderflow 512), ret := .fault (.stackUnderflow 512) }
    step s = .next t ∧ s.fault = none ∧ s.halted = false ∧ t.fault ≠ none :=
  ⟨next_of_peek (by decide), by decide⟩

theorem witness_PcAfterEveryStep_running :
    let s := busy 0x1204
    let t : State := { s with pc := 516 }
    step s = .next t ∧ s.fault = none ∧ s.halted = false ∧ t.fault = none :=
  ⟨next_of_peek (by decide), by decide⟩

theorem witness_FaultsAreExactlyTheListedOnes :
    let s : State := { busy 0xF033 with I := 4094 }
    let t : State := { s with fault := some (.memOutOfBounds 4096), ret := .fault (.memOutOfBounds 4096) }
    s.fault = none ∧ s.halted = false ∧ step s = .next t ∧ t.fault = some (.memOutOfBounds 4096) :=
  ⟨by decide, by decide, next_of_peek (by decide), by decide⟩

theorem witness_FaultedCoreIsInert :
    ({ busy 0 with fault := some (.fetchOutOfBounds 4096) } : State).fault ≠ none := by decide

/-- Depth one, at a limit of one and below a limit of two. -/
theorem witness_CallPushesTheReturnAddress : (busy 0x2300).stack.length = 1 ∧ (busy 0x2300).stack.length < 2 := by
  decide

theorem witness_ReturnPopsOrUnderflows : (busy 0x00EE).stack = 518 :: [] ∧ (start 0x00EE).stack = [] := by decide

theorem witness_CallThenReturnRestores :
    let s : State := { busy 0x2300 with mem := [(512, 0x23), (769, 0xEE)] }
    s.fault = none ∧ s.halted = false ∧ s.pc.toNat ≤ 4094 ∧ (768 : Addr12).toNat ≤ 4094 ∧
      s.fetchedWord = BitVec.ofNat 16 (0x2000 + (768 : Addr12).toNat) ∧
      wordOfBytes (Memory.read s.mem (768 : Addr12).toNat) (Memory.read s.mem ((768 : Addr12).toNat + 1)) = 0x00EE := by
  decide

theorem witness_ShiftsWithFlag :
    (200 : Byte) = (if (busy 0).shiftQuirk then (busy 0).getV 1 else (busy 0).getV 2) := by decide

theorem witness_ExactArithmeticLaws :
    (1 : RegIdx) ≠ 15 ∧ 7 = ((busy 0).getV 1).toNat ∧ 200 = ((busy 0).getV 2).toNat := by decide

/-- The last I at which `BCD` stores, and the first at which it faults. -/
theorem witness_BcdStoresTheDigits :
    ({ busy 0 with I := 4093 } : State).I.toNat + 2 ≤ 4095 ∧ 4095 < ({ busy 0 with I := 4094 } : State).I.toNat + 2 := by
  decide

theorem witness_StoreRegisters :
    ({ busy 0 with I := 4080 } : State).I.toNat + (15 : RegIdx).val ≤ 4095 ∧
      4095 < ({ busy 0 with I := 4081 } : State).I.toNat + (15 : RegIdx).val ∧ (0 : RegIdx) ≤ 15 := by decide

/-- With x = 0: the highest address, and the first that does not exist. -/
theorem witness_LoadRegisters :
    ({ busy 0 with I := 4095 } : State).I.toNat + (0 : RegIdx).val ≤ 4095 ∧
      4095 < ({ busy 0 with I := 4096 } : State).I.toNat + (0 : RegIdx).val := by decide

theorem witness_StoreThenLoadRestoresRegisters :
    (busy 0).I.toNat + (1 : RegIdx).val ≤ 4095 ∧
      exec (.stm 1) (busy 0) = .next { busy 0 with
        mem := Memory.writeRun (busy 0).mem 768 [0, 7], I := 770, pc := 514 } :=
  ⟨by decide, next_of_peek (by decide)⟩

/-- `BCD 2` at 768, and a later fetch at 767: one byte of the word stored, one not. -/
theorem witness_FetchSeesTheStoredBytes :
    let t : State := { busy 0 with mem := Memory.writeRun (busy 0).mem 768 [2, 0, 0], pc := 514 }
    let u : State := { t with pc := 767, dt := 9 }
    exec (.bcd 2) (busy 0) = .next t ∧ t.fault = none ∧ u.mem = t.mem ∧ u.fault = none ∧ u.halted = false ∧
      u.pc.toNat ≤ 4094 ∧ byteAfter (.bcd 2) (busy 0) 767 = 0 ∧ byteAfter (.bcd 2) (busy 0) 768 = 2 :=
  ⟨next_of_peek (by decide), by decide⟩

/-- `STM 1` at 768, and a later fetch of the two stored bytes; and one that reaches the last pc. -/
theorem witness_FetchSeesTheStoredBytes_stm :
    let t : State := { busy 0 with mem := Memory.writeRun (busy 0).mem 768 [0, 7], I := 770, pc := 514 }
    exec (.stm 1) (busy 0) = .next t ∧ t.fault = none ∧ byteAfter (.stm 1) (busy 0) 769 = 7 ∧
      ({ t with pc := 768 } : State).pc.toNat ≤ 4094 ∧ ({ t with pc := 4094 } : State).pc.toNat ≤ 4094 :=
  ⟨next_of_peek (by decide), by decide⟩

theorem witness_MemoryFormIsUnique :
    Memory.wf (busy 0x1204).mem ∧ Memory.wf (start 0x1204).mem ∧
      ∀ a, a < 4096 → Memory.read (busy 0x1204).mem a = Memory.read (start 0x1204).mem a :=
  ⟨by decide, by decide, fun _ _ => rfl⟩

theorem witness_TicksCountDownToZero : (busy 0).fault = none := by decide

theorem witness_DeliverKeyReleasesTheHalt :
    (busy 0).fault = none ∧ ({ busy 0 with halted := true } : State).halted = true ∧ (busy 0).halted = false ∧
      (5 : RegIdx) ≠ 4 := by
  decide

theorem witness_DeliverKeyReleasesTheHalt_awaiting :
    let t : State := { busy 0xF40A with halted := true, pc := 514, ret := .ok (.awaitKey 4) }
    step (busy 0xF40A) = .next t ∧ t.ret = .ok (.awaitKey 4) :=
  ⟨next_of_peek (by decide), by decide⟩

/-- The program `WKEY 4`, a step, and the delivery of key 7. -/
theorem witness_DeliverKeyReleasesTheHalt_hosted :
    let s : State := { State.reset with mem := [(512, 0xF4), (513, 0x0A)] }
    construct false false [0xF4, 0x0A] = some s ∧
      runHosted [.step, .deliverKey 4 7] ⟨s, none⟩ =
        .next ⟨{ s.setV 4 7 with pc := 514, ret := .ok (.awaitKey 4) }, none⟩ := by
  exact ⟨by decide, rfl⟩

theorem witness_AwaitedKeyResumesTheProgram :
    (busy 0xF40A).fault = none ∧ ∀ c ∈ [Call.step, .tick, .step], c = .step ∨ c = .tick := by decide

theorem witness_OnlyFiveInstructionsEmit :
    (busy 0xD125).fault = none ∧ (busy 0xD125).halted = false ∧ (busy 0xD125).pc.toNat ≤ 4094 ∧
      exec (.drw 1 2 5) (busy 0xD125) = .next { busy 0xD125 with pc := 514, ret := .ok (.drawSprite 1 2 5) } ∧
      execNop (busy 0) = .next { busy 0 with pc := 514 } :=
  ⟨by decide, by decide, by decide, next_of_peek (by decide), next_of_peek (by decide)⟩

theorem witness_FrameOfTheRegisters :
    exec (.addr 1 2) (busy 0) = .next { busy 0 with
      V := (((busy 0).setV 15 0).setV 1 207).V, pc := 514 } ∧ (2 : RegIdx) ∉ writtenRegs (.addr 1 2) :=
  ⟨next_of_peek (by decide), by decide⟩

theorem witness_FrameOfTheMemory :
    exec (.stm 1) (busy 0) = .next { busy 0 with
      mem := Memory.writeRun (busy 0).mem 768 [0, 7], I := 770, pc := 514 } ∧ ¬ Stores (.stm 1) (busy 0) 770 :=
  ⟨next_of_peek (by decide), by show ¬ (768 ≤ 770 ∧ 770 ≤ 768 + 1); omega⟩

theorem witness_FrameOfTheSpecialState :
    exec (.mov 1 2) (busy 0) = .next { busy 0 with V := ((busy 0).setV 1 200).V, pc := 514 } :=
  next_of_peek (by decide)

theorem witness_OnlyThreeInstructionsTouchMemory :
    (Instr.mov 1 2).op ∉ [Op.bcd, .stm, .ldm] ∧
      exec (.ldm 0) (busy 0) = .next { busy 0 with I := 769, pc := 514 } :=
  ⟨by decide, next_of_peek (by decide)⟩

theorem witness_QuirksAreReadOnlyWhereNamed :
    (Instr.mov 1 2).op ∉ [Op.shr, .shl] ∧ (Instr.mov 1 2).op ∉ [Op.stm, .ldm] ∧
      applyCall .step (busy 0) = .next { busy 0 with pc := 514 } :=
  ⟨by decide, by decide, next_of_peek (by decide)⟩

/-- The longest program, and both ends of each range of addresses. -/
theorem witness_ConstructLeavesTheStatedState :
    (List.replicate 3584 (0x12 : Byte)).length ≤ 3584 ∧ 3583 < (List.replicate 3584 (0x12 : Byte)).length ∧
      0 < 16 ∧ 15 < 16 ∧ 4 < 5 ∧ 80 ≤ 511 ∧ 511 < 512 ∧ 512 + ([] : List Byte).length ≤ 4095 ∧ 4095 < 4096 := by
  rw [List.length_replicate]
  decide

theorem busy_meets_the_invariant : (busy 0x1204).Inv := by
  refine ⟨by decide, ?_, fun l h => nomatch (show none = some l from h)⟩
  intro e he
  obtain rfl : e = 518 := List.mem_singleton.mp he
  decide

theorem witness_StepKeepsTheInvariant :
    (busy 0x1204).Inv ∧ step (busy 0x1204) = .next { busy 0x1204 with pc := 516 } ∧
      applyCall .tick (busy 0x1204) = .next { busy 0x1204 with dt := 4 } :=
  ⟨busy_meets_the_invariant, next_of_peek (by decide), next_of_peek (by decide)⟩

theorem witness_EveryRunKeepsTheInvariant :
    construct true true [0x12] = some { State.reset with shiftQuirk := true, indexQuirk := true, mem := [(512, 0x12)] } := by
  decide

theorem witness_EndedRunStaysPut : (busy 0x1200).endedOk := ⟨by decide, by decide, 512, by decide, by decide⟩

theorem witness_DisassembledTextIsNormalised_assembles :
    assemble " LD  007 , 0010 \n\nRET" = .ok [0x67, 0x0A, 0x00, 0xEE] := by decide +kernel

theorem source_lines_of_a_text :
    sourceLines " LD  007 , 0010 \n\nRET" =
      [['L', 'D', ' ', ' ', '0', '0', '7', ' ', ',', ' ', '0', '0', '1', '0'], ['R', 'E', 'T']] := by decide +kernel

theorem witness_DisassembledTextIsNormalised_known :
    ∀ l ∈ sourceLines " LD  007 , 0010 \n\nRET",
      (Op.ofMnemonic? (String.ofList (lineMnemonic l))).isSome = true := by
  rw [source_lines_of_a_text]
  decide +kernel

theorem witness_UnrecognisedWordPrintsEmpty :
    decode 0x0000 = .undefined .group0 ∧
      ((0x5341 : Word).toNat / 4096 = 5 ∨ (0x5341 : Word).toNat / 4096 = 9) ∧ (0x5341 : Word).toNat % 16 ≠ 0 ∧
      ((0x934F : Word).toNat / 4096 = 5 ∨ (0x934F : Word).toNat / 4096 = 9) ∧ (0x934F : Word).toNat % 16 ≠ 0 := by decide

theorem witness_UnknownMnemonicsAndBadOperands_unknown :
    Blanks [' ', '\t'] ∧ ['F', 'O', 'O'] ≠ [] ∧ (∀ c ∈ ['F', 'O', 'O'], c ≠ ' ' ∧ c ≠ '\t' ∧ c ≠ '\n') ∧
      Op.ofMnemonic? (String.ofList ['F', 'O', 'O']) = none :=
  ⟨by simp [Blanks], by simp, by simp, by decide +kernel⟩

/-- What may follow the mnemonic: nothing, a carriage return, a tab and more. -/
theorem witness_UnknownMnemonicsAndBadOperands_rest :
    (([] : List Char) = [] ∧ ['F', 'O', 'O'].getLast? ≠ some '\r') ∧ ['\r'] = ['\r'] ∧
      (∃ c ∈ ['\t', 'a', ',', 'b'].head?, c = ' ' ∨ c = '\t') ∧ '\n' ∉ ['\t', 'a', ',', 'b'] := by
  simp

/-- The operand texts `1,,2` and `x`: an empty piece, and a piece that is no number. -/
theorem witness_UnknownMnemonicsAndBadOperands_parse :
    Blanks [] ∧ Blanks ['\t'] ∧ '\n' ∉ ['1', ',', ',', '2'] ∧ trim (dropCr ['1', ',', ',', '2']) ≠ [] ∧
      ([] ∈ splitAt ',' (dropCr ['1', ',', ',', '2']) ∧ ¬ IsDecimal (trim [])) ∧
      (['x'] ∈ splitAt ',' (dropCr ['x']) ∧ ¬ IsDecimal (trim ['x'])) := by
  refine ⟨by simp [Blanks], by simp [Blanks], by simp, by decide, ⟨by decide, fun h => h.1 rfl⟩, by decide, fun h => ?_⟩
  exact absurd (h.2 'x' (by decide)).2 (by decide)

theorem witness_UnknownMnemonicsAndBadOperands_operands :
    [1].length ≠ Op.ld.format.limits.length ∧ [16, 0].length = Op.ld.format.limits.length ∧
      operandsFit [16, 0] Op.ld.format.limits = false := by decide

end Sys2Proof.Tests
end

/-!
The quirk flags (R38, `10_state.md` section 5). One lemma says how `exec` answers a state whose two flags were replaced:
as it answers the state itself, with the flags replaced afterwards, as long as a flag the instruction reads keeps its
value. Non-interference of each flag and the frame of both follow from it.
-/

namespace Sys2Proof.Machine

open Sys2Proof.Claims

/-- The state with both quirk flags replaced. -/
def State.withQuirks (sq iq : Bool) (s : State) : State := { s with shiftQuirk := sq, indexQuirk := iq }

/-! ### Replacing the flags commutes with the shared operations -/

section
variable (sq iq : Bool) (s : State)

theorem skipWhen_withQuirks (c : Bool) :
    skipWhen c (s.withQuirks sq iq) = mapNext (State.withQuirks sq iq) (skipWhen c s) := by
  cases c <;> rfl

theorem keyQueryWith_withQuirks (p : Bool) (x : RegIdx) (sel : KeySelector) :
    keyQueryWith p x sel (s.withQuirks sq iq) = mapNext (State.withQuirks sq iq) (keyQueryWith p x sel s) := by
  unfold keyQueryWith
  cases answerSatisfies sel p <;> rfl

theorem execRet_withQuirks :
    execRet (s.withQuirks sq iq) = mapNext (State.withQuirks sq iq) (execRet s) := by
  cases s with
  | mk V I pc mem stack dt st halted shiftQuirk indexQuirk fault ret draws => cases stack <;> rfl

/-- The bounds check of a memory instruction reads no flag, so only its continuation matters. -/
theorem withRun_withQuirks {k : State → Result} (last : Nat)
    (hk : k (s.withQuirks sq iq) = mapNext (State.withQuirks sq iq) (k s)) :
    withRun last (s.withQuirks sq iq) k = mapNext (State.withQuirks sq iq) (withRun last s k) := by
  unfold withRun
  rw [show (s.withQuirks sq iq).runFits last = s.runFits last from rfl]
  split
  · exact hk
  · rfl

theorem execBcd_withQuirks (x : RegIdx) :
    execBcd x (s.withQuirks sq iq) = mapNext (State.withQuirks sq iq) (execBcd x s) := by
  unfold execBcd
  exact withRun_withQuirks sq iq s 2 rfl

end

/-- `STM` reads INDEX_QUIRK in the last update of I alone, `State.bulkIndex` (R154). -/
theorem execStm_withQuirks (sq : Bool) (s : State) (x : RegIdx) :
    execStm x (s.withQuirks sq s.indexQuirk) = mapNext (State.withQuirks sq s.indexQuirk) (execStm x s) := by
  unfold execStm
  refine withRun_withQuirks sq s.indexQuirk s x.val ?_
  simp only [State.bulkIndex_eq]
  rfl

/-- `LDM` reads INDEX_QUIRK as `STM` does (R155). -/
theorem execLdm_withQuirks (sq : Bool) (s : State) (x : RegIdx) :
    execLdm x (s.withQuirks sq s.indexQuirk) = mapNext (State.withQuirks sq s.indexQuirk) (execLdm x s) := by
  unfold execLdm
  refine withRun_withQuirks sq s.indexQuirk s x.val ?_
  simp only [State.bulkIndex_eq]
  rfl

/-! ### Replacing the flags commutes with an instruction that does not read what changed -/

/-- Other flags in, the same answer with the other flags out. -/
theorem exec_withQuirks (i : Instr) (s : State) (sq iq : Bool)
    (hs : i.op ∈ [Op.shr, .shl] → sq = s.shiftQuirk) (hi : i.op ∈ [Op.stm, .ldm] → iq = s.indexQuirk) :
    exec i (s.withQuirks sq iq) = mapNext (State.withQuirks sq iq) (exec i s) := by
  cases i
  -- The shift source is the same, since SHIFT_QUIRK keeps its value (R139, R141).
  case shr | shl =>
    obtain rfl := hs (by simp [Instr.op])
    rfl
  case stm x =>
    obtain rfl := hi (by simp [Instr.op])
    exact execStm_withQuirks sq s x
  case ldm x =>
    obtain rfl := hi (by simp [Instr.op])
    exact execLdm_withQuirks sq s x
  case bcd x => exact execBcd_withQuirks sq iq s x
  case se | sne | ser | sner => exact skipWhen_withQuirks sq iq s _
  case skp | sknp => exact keyQueryWith_withQuirks sq iq s _ _ _
  case ret => exact execRet_withQuirks sq iq s
  -- The other meanings complete or emit without a branch, on updates of other fields than the flags
  -- (`CALL` has no stack limit).
  all_goals rfl

/-! ### No call changes a flag -/

/-- Replacing the flags by their own values changes nothing, so by `exec_withQuirks` they stand in the next state too. -/
theorem exec_keeps_quirks {i : Instr} {s t : State} (h : exec i s = .next t) :
    t.shiftQuirk = s.shiftQuirk ∧ t.indexQuirk = s.indexQuirk := by
  have hsame : exec i s = mapNext (State.withQuirks s.shiftQuirk s.indexQuirk) (exec i s) :=
    exec_withQuirks i s s.shiftQuirk s.indexQuirk (fun _ => rfl) fun _ => rfl
  rw [h] at hsame
  injection hsame with ht
  rw [ht]
  exact ⟨rfl, rfl⟩

theorem step_keeps_quirks {s t : State} (h : step s = .next t) :
    t.shiftQuirk = s.shiftQuirk ∧ t.indexQuirk = s.indexQuirk := by
  have hcomplete : ∀ u, complete s = .next u → u.shiftQuirk = s.shiftQuirk ∧ u.indexQuirk = s.indexQuirk :=
    fun u hu => by obtain rfl := (complete_eq_next s u).mp hu; exact ⟨rfl, rfl⟩
  rcases step_cases s with ⟨_, e⟩ | ⟨_, _, e⟩ | ⟨_, _, _, e⟩ | ⟨_, _, _, e⟩ <;> rw [e] at h
  · exact hcomplete t h
  · exact hcomplete t h
  · obtain rfl := (raise_eq_next _ s t).mp h
    exact ⟨rfl, rfl⟩
  · rcases runWord_cases s.fetchedWord s with ⟨i, _, e⟩ | ⟨g, _, e⟩ <;> rw [e] at h
    · exact exec_keeps_quirks h
    · obtain rfl := (complete_eq_next s.advance t).mp h
      exact ⟨rfl, rfl⟩

theorem applyCall_keeps_quirks {c : Call} {s t : State} (h : applyCall c s = .next t) :
    t.shiftQuirk = s.shiftQuirk ∧ t.indexQuirk = s.indexQuirk := by
  cases c with
  | step => exact step_keeps_quirks h
  | tick =>
    injection h with h
    rw [← h, tick_eq]
    exact ⟨rfl, rfl⟩
  | deliverKey x k =>
    injection h with h
    rw [← h, deliverKey_eq]
    exact ⟨rfl, rfl⟩

/-! ### Non-interference of each flag -/

/-- INDEX_QUIRK is replaced by its own value, which the next state keeps. -/
theorem exec_other_shiftQuirk (i : Instr) (s : State) (b : Bool) (hop : i.op ∉ [Op.shr, .shl]) :
    exec i { s with shiftQuirk := b } = mapNext (fun t => { t with shiftQuirk := b }) (exec i s) := by
  have h := exec_withQuirks i s b s.indexQuirk (fun hi => absurd hi hop) fun _ => rfl
  refine h.trans ?_
  cases e : exec i s with
  | next t => simp only [mapNext, State.withQuirks, ← (exec_keeps_quirks e).2]
  | fault | refused => rfl

/-- SHIFT_QUIRK is replaced by its own value, which the next state keeps. -/
theorem exec_other_indexQuirk (i : Instr) (s : State) (b : Bool) (hop : i.op ∉ [Op.stm, .ldm]) :
    exec i { s with indexQuirk := b } = mapNext (fun t => { t with indexQuirk := b }) (exec i s) := by
  have h := exec_withQuirks i s s.shiftQuirk b (fun _ => rfl) fun hi => absurd hi hop
  refine h.trans ?_
  cases e : exec i s with
  | next t => simp only [mapNext, State.withQuirks, ← (exec_keeps_quirks e).1]
  | fault | refused => rfl

/-- Settles O48: `exec_withQuirks` with one flag replaced and the other kept, and the frame of the flags over a call. -/
theorem quirksAreReadOnlyWhereNamed : Obligations.QuirksAreReadOnlyWhereNamed :=
  ⟨exec_other_shiftQuirk, exec_other_indexQuirk, fun _ _ _ => applyCall_keeps_quirks⟩

end Sys2Proof.Machine

/-!
Memory (R50, R65, `20_memory.md`). One lemma says how `exec` answers a state whose memory was replaced, for the
instructions that do not touch memory: as it answers the state itself, with the memory replaced afterwards. The frame of
memory follows from it, and with the run of bytes that `BCD` and `STM` store, every byte of the memory an instruction
leaves.
-/

namespace Sys2Proof.Machine

open Sys2Proof.Claims

/-- The state over another memory. -/
def State.withMem (m : Memory) (s : State) : State := { s with mem := m }

/-! ### Replacing the memory commutes with every instruction but `BCD`, `STM` and `LDM` -/

section
variable (m : Memory) (s : State)

theorem skipWhen_withMem (c : Bool) : skipWhen c (s.withMem m) = mapNext (State.withMem m) (skipWhen c s) := by
  cases c <;> rfl

theorem keyQueryWith_withMem (p : Bool) (x : RegIdx) (sel : KeySelector) :
    keyQueryWith p x sel (s.withMem m) = mapNext (State.withMem m) (keyQueryWith p x sel s) := by
  unfold keyQueryWith
  cases answerSatisfies sel p <;> rfl

theorem execRet_withMem : execRet (s.withMem m) = mapNext (State.withMem m) (execRet s) := by
  cases s with
  | mk V I pc mem stack dt st halted shiftQuirk indexQuirk fault ret draws => cases stack <;> rfl

/-- Another memory in, the same answer over that memory out. -/
theorem exec_withMem (i : Instr) (hop : i.op ∉ [Op.bcd, .stm, .ldm]) :
    exec i (s.withMem m) = mapNext (State.withMem m) (exec i s) := by
  cases i
  case bcd | stm | ldm => simp [Instr.op] at hop
  case se | sne | ser | sner => exact skipWhen_withMem m s _
  case skp | sknp => exact keyQueryWith_withMem m s _ _ _
  case ret => exact execRet_withMem m s
  -- The other meanings complete or emit without a branch, on updates of other fields than the memory
  -- (`CALL` has no stack limit).
  all_goals rfl

end

/-! ### What an instruction leaves in memory -/

/-- `LDM` leaves memory as it is, whether it loads or faults. -/
theorem execLdm_keeps_mem {x : RegIdx} {s t : State} (h : execLdm x s = .next t) : t.mem = s.mem := by
  rcases execLdm_cases h with ⟨_, rfl⟩ | ⟨_, rfl⟩ <;> rfl

/-- Only `BCD` and `STM` change memory: over its own memory, `exec_withMem` puts that memory in the next state. -/
theorem exec_keeps_mem {i : Instr} {s t : State} (hop : i.op ∉ [Op.bcd, .stm]) (h : exec i s = .next t) :
    t.mem = s.mem := by
  by_cases hldm : i.op = .ldm
  · cases i <;> simp [Instr.op] at hldm
    case ldm x => exact execLdm_keeps_mem h
  · have hsame : exec i s = mapNext (State.withMem s.mem) (exec i s) :=
      exec_withMem s.mem s i (by simpa [hldm] using hop)
    rw [h] at hsame
    injection hsame with ht
    rw [ht]
    rfl

/-- The bytes of `STM x`, one by one. -/
theorem State.regsUpTo_getD (s : State) {x : RegIdx} {k : Nat} (hk : k ≤ x.val) :
    (s.regsUpTo x).getD k 0 = s.getV (Fin.ofNat 16 k) := by
  have hx := x.isLt
  simp [State.regsUpTo, State.getV, List.getD, Nat.mod_eq_of_lt (show k < 16 by omega), show k < x.val + 1 by omega]

/-- The bytes of `BCD x` are the three decimal digits of V[x] from I (R153). -/
theorem storedByte_bcd (x : RegIdx) (s : State) (a : Nat) :
    storedByte (.bcd x) s a =
      if s.I.toNat ≤ a ∧ a < s.I.toNat + (bcdDigits (s.getV x)).length
      then some ((bcdDigits (s.getV x)).getD (a - s.I.toNat) 0) else none := by
  rw [bcdDigits_length]
  by_cases hin : s.I.toNat ≤ a ∧ a < s.I.toNat + 3
  · rw [if_pos hin]
    obtain rfl | rfl | rfl : a = s.I.toNat ∨ a = s.I.toNat + 1 ∨ a = s.I.toNat + 2 := by omega
    all_goals simp [storedByte, bcdDigits]
  · rw [if_neg hin, storedByte, if_neg (by omega), if_neg (by omega), if_neg (by omega)]

/-- The bytes of `STM x` are V[0] .. V[x] from I (R154). -/
theorem storedByte_stm (x : RegIdx) (s : State) (a : Nat) :
    storedByte (.stm x) s a =
      if s.I.toNat ≤ a ∧ a < s.I.toNat + (s.regsUpTo x).length
      then some ((s.regsUpTo x).getD (a - s.I.toNat) 0) else none := by
  rw [State.regsUpTo_length]
  by_cases hin : s.I.toNat ≤ a ∧ a ≤ s.I.toNat + x.val
  · rw [storedByte, if_pos hin, if_pos (by omega), State.regsUpTo_getD s (by omega)]
  · rw [storedByte, if_neg hin, if_neg (by omega)]

theorem storedByte_eq_none {i : Instr} (hop : i.op ∉ [Op.bcd, .stm]) (s : State) (a : Nat) :
    storedByte i s a = none := by
  cases i
  case bcd | stm => simp [Instr.op] at hop
  all_goals rfl

/-- A run of bytes stored from I reads as `byteAfter` says, once the run is the instruction's stored bytes. -/
theorem read_writeRun_eq_byteAfter {i : Instr} {s : State} {bs : List Byte} (hfit : s.I.toNat + bs.length ≤ 4096)
    (a : Nat) (hbs : storedByte i s a =
      if s.I.toNat ≤ a ∧ a < s.I.toNat + bs.length then some (bs.getD (a - s.I.toNat) 0) else none) :
    Memory.read (Memory.writeRun s.mem s.I.toNat bs) a = byteAfter i s a := by
  rw [byteAfter, hbs, Memory.read_writeRun s.mem s.I.toNat bs hfit]
  split <;> rfl

/-- Every byte after an instruction that ran without a fault: the one it stored, else the one from before (R55). -/
theorem exec_read_eq_byteAfter {i : Instr} {s t : State} (h : exec i s = .next t) (hf : t.fault = none) (a : Nat) :
    Memory.read t.mem a = byteAfter i s a := by
  by_cases hop : i.op ∈ [Op.bcd, .stm]
  · cases i <;> simp [Instr.op] at hop
    case bcd x =>
      rcases execBcd_cases h with ⟨hfit, rfl⟩ | ⟨_, rfl⟩
      · exact read_writeRun_eq_byteAfter (by rw [bcdDigits_length]; omega) a (storedByte_bcd x s a)
      · cases hf
    case stm x =>
      rcases execStm_cases h with ⟨hfit, rfl⟩ | ⟨_, rfl⟩
      · exact read_writeRun_eq_byteAfter (by rw [State.regsUpTo_length]; omega) a (storedByte_stm x s a)
      · cases hf
  · rw [exec_keeps_mem hop h, byteAfter, storedByte_eq_none hop]
    rfl

/-- A step that neither a gate nor the fetch bound stops runs the word at pc (R100). -/
theorem step_eq_runWord {u : State} (hf : u.fault = none) (hh : u.halted = false) (hp : u.pc.toNat ≤ 4094) :
    step u = runWord u.fetchedWord u := by
  rcases step_cases u with ⟨hf', _⟩ | ⟨_, hh', _⟩ | ⟨_, _, hp', _⟩ | ⟨_, _, _, e⟩
  · exact absurd hf hf'
  · simp [hh] at hh'
  · omega
  · exact e

/-! ### The statements -/

/-- Settles O47: `exec_withMem`, and `LDM`, which reads memory but leaves it as it is. -/
theorem onlyThreeInstructionsTouchMemory : Obligations.OnlyThreeInstructionsTouchMemory :=
  ⟨fun i s m hop => exec_withMem m s i hop, fun _ _ _ => execLdm_keeps_mem⟩

/-- Settles O34: the step runs the word at pc of the memory the instruction left, and `exec_read_eq_byteAfter` says what
its two bytes are. -/
theorem fetchSeesTheStoredBytes : Obligations.FetchSeesTheStoredBytes := by
  intro i s t u hexec htf hmem huf huh hpc
  rw [step_eq_runWord huf huh hpc, State.fetchedWord, hmem, exec_read_eq_byteAfter hexec htf,
    exec_read_eq_byteAfter hexec htf]

end Sys2Proof.Machine

/-!
The opcode table (R74, `30_encoding.md` section 3). Under each of the four masks a word agrees with a row's `match`
exactly when the group nibble and the group's selector do, which is what `decode` compares. So a word of a row decodes to
an instruction of that row with the word's fields as operands, and a decoded word is a word of its instruction's row.
-/

namespace Sys2Proof

open Sys2Proof.Machine Sys2Proof.Claims

/-! ### A masked comparison compares fields -/

section
variable {w c : Word}

theorem and_F000_eq_iff (hc : c &&& 0xF000#16 = c) : w &&& 0xF000#16 = c ↔ fieldF1 w = fieldF1 c := by
  have hcn := and_F000 c
  rw [hc] at hcn
  simp only [← BitVec.toNat_inj, and_F000, fieldF1_toNat]
  omega

theorem and_F00F_eq_iff (hc : c &&& 0xF00F#16 = c) :
    w &&& 0xF00F#16 = c ↔ fieldF1 w = fieldF1 c ∧ fieldN w = fieldN c := by
  have hcn := and_F00F c
  rw [hc] at hcn
  simp only [← BitVec.toNat_inj, and_F00F, fieldF1_toNat, fieldN_toNat]
  omega

theorem and_F0FF_eq_iff (hc : c &&& 0xF0FF#16 = c) :
    w &&& 0xF0FF#16 = c ↔ fieldF1 w = fieldF1 c ∧ fieldNN w = fieldNN c := by
  have hcn := and_F0FF c
  rw [hc] at hcn
  simp only [← BitVec.toNat_inj, and_F0FF, fieldF1_toNat, fieldNN_toNat]
  omega

theorem and_FFFF_eq_iff : w &&& 0xFFFF#16 = c ↔ fieldF1 w = fieldF1 c ∧ fieldNNN w = fieldNNN c := by
  simp only [and_FFFF, ← BitVec.toNat_inj, fieldF1_toNat, fieldNNN_toNat]
  omega

end

/-! ### A word of a row decodes to the row's instruction -/

/-- The fields as the codec reads them are the numbers of R72. -/
theorem formatFields_eq_operandsOf (f : Format) (w : Word) : formatFields f w = operandsOf f w.toNat := by
  cases f <;> simp only [formatFields, operandsOf, fieldX_val, fieldY_val, fieldN_toNat, fieldNN_toNat, fieldNNN_toNat]

theorem decode_group0 {w : Word} (hf : fieldF1 w = 0x0#4) : decode w = decodeGroup0 w := by
  rw [decode, hf]; rfl

theorem decode_group8 {w : Word} (hf : fieldF1 w = 0x8#4) : decode w = decodeGroup8 w := by
  rw [decode, hf]; rfl

theorem decode_groupE {w : Word} (hf : fieldF1 w = 0xE#4) : decode w = decodeGroupE w := by
  rw [decode, hf]; rfl

theorem decode_groupF {w : Word} (hf : fieldF1 w = 0xF#4) : decode w = decodeGroupF w := by
  rw [decode, hf]; rfl

/-- The cases are the masks of R74, that is the sub-selectors of R73. -/
theorem decode_of_match {w : Word} {o : Op} (h : w &&& o.mask = o.code) :
    ∃ i, decode w = .instr i ∧ i.op = o ∧ i.operands = formatFields o.format w := by
  cases o
  case cls | ret =>
    obtain ⟨hf, hnnn⟩ := and_FFFF_eq_iff.mp h
    exact ⟨_, (decode_group0 hf).trans (by rw [decodeGroup0, hnnn]; rfl), rfl, rfl⟩
  case jp | call | se | sne | ser | ld | add | sner | ldi | jpv | rnd | drw =>
    have hf := (and_F000_eq_iff rfl).mp h
    exact ⟨_, by rw [decode, hf]; rfl, rfl, rfl⟩
  case mov | or | and | xor | addr | sub | shr | subn | shl =>
    obtain ⟨hf, hn⟩ := (and_F00F_eq_iff rfl).mp h
    exact ⟨_, (decode_group8 hf).trans (by rw [decodeGroup8, hn]; rfl), rfl, rfl⟩
  case skp | sknp =>
    obtain ⟨hf, hnn⟩ := (and_F0FF_eq_iff rfl).mp h
    exact ⟨_, (decode_groupE hf).trans (by rw [decodeGroupE, hnn]; rfl), rfl, rfl⟩
  case gdt | wkey | sdt | sst | addi | font | bcd | stm | ldm =>
    obtain ⟨hf, hnn⟩ := (and_F0FF_eq_iff rfl).mp h
    exact ⟨_, (decode_groupF hf).trans (by rw [decodeGroupF, hnn]; rfl), rfl, rfl⟩

/-! ### A decoded word is a word of its instruction's row

Each case computes the row before the mask lemma is used, so that its code is a closed word. -/

section
variable {w : Word} {i : Instr}

theorem match_of_decodeGroup0 (hf : fieldF1 w = 0x0#4) (h : decodeGroup0 w = .instr i) :
    w &&& i.op.mask = i.op.code := by
  unfold decodeGroup0 at h
  split at h
  next hnnn => cases h; exact and_FFFF_eq_iff.mpr ⟨hf, hnnn⟩
  split at h <;> cases h
  next hnnn => exact and_FFFF_eq_iff.mpr ⟨hf, hnnn⟩

theorem match_of_decodeGroup8 (hf : fieldF1 w = 0x8#4) (h : decodeGroup8 w = .instr i) :
    w &&& i.op.mask = i.op.code := by
  unfold decodeGroup8 at h
  split at h <;> cases h
  all_goals
    next hn => dsimp only [Instr.op]; exact (and_F00F_eq_iff rfl).mpr ⟨hf, hn⟩

theorem match_of_decodeGroupE (hf : fieldF1 w = 0xE#4) (h : decodeGroupE w = .instr i) :
    w &&& i.op.mask = i.op.code := by
  unfold decodeGroupE at h
  split at h
  next hnn => cases h; dsimp only [Instr.op]; exact (and_F0FF_eq_iff rfl).mpr ⟨hf, hnn⟩
  split at h <;> cases h
  next hnn => dsimp only [Instr.op]; exact (and_F0FF_eq_iff rfl).mpr ⟨hf, hnn⟩

theorem match_of_decodeGroupF (hf : fieldF1 w = 0xF#4) (h : decodeGroupF w = .instr i) :
    w &&& i.op.mask = i.op.code := by
  unfold decodeGroupF at h
  split at h <;> cases h
  all_goals
    next hnn => dsimp only [Instr.op]; exact (and_F0FF_eq_iff rfl).mpr ⟨hf, hnn⟩

theorem match_of_decode (h : decode w = .instr i) : w &&& i.op.mask = i.op.code := by
  unfold decode at h
  split at h
  case h_1 hf => exact match_of_decodeGroup0 hf h
  case h_9 hf => exact match_of_decodeGroup8 hf h
  case h_15 hf => exact match_of_decodeGroupE hf h
  case h_16 =>
    -- The group nibble is none of the fifteen before.
    have hf : fieldF1 w = 0xF#4 := by
      generalize fieldF1 w = f at *
      revert f
      decide
    exact match_of_decodeGroupF hf h
  -- The other groups have no sub-selector.
  all_goals
    next hf => cases h; dsimp only [Instr.op]; exact (and_F000_eq_iff rfl).mpr hf

end

/-- Settles O2: `decode_of_match` and `match_of_decode`; since `decode` is a function, two rows that share a word are
the row of one instruction, and the decoded instruction is the one with the word's fields. -/
theorem decodeFollowsTheOpcodeTable : Obligations.DecodeFollowsTheOpcodeTable := by
  refine ⟨fun w o => ⟨?_, fun h => ?_⟩, fun w o p ho hp => ?_, fun w i h => ?_⟩
  · rintro ⟨i, h, rfl⟩
    exact match_of_decode h
  · obtain ⟨i, hi, hop, -⟩ := decode_of_match h
    exact ⟨i, hi, hop⟩
  · obtain ⟨i, hi, rfl, -⟩ := decode_of_match ho
    obtain ⟨j, hj, rfl, -⟩ := decode_of_match hp
    cases hi.symm.trans hj
    rfl
  · obtain ⟨j, hj, -, hfields⟩ := decode_of_match (match_of_decode h)
    cases h.symm.trans hj
    rw [hfields, formatFields_eq_operandsOf]

/-! ### `SER` and `SNER` -/

/-- The fields of a word written as its four nibbles, the group nibble being `f`. -/
theorem fields_of_nibbles {c : Nat} (f : BitVec 4) (hc : c = f.toNat * 4096) (x y : RegIdx) (n : Nibble) :
    let w := BitVec.ofNat 16 (c + x.val * 256 + y.val * 16 + n.toNat)
    fieldF1 w = f ∧ fieldX w = x ∧ fieldY w = y ∧ fieldN w = n := by
  intro w
  have hf := f.isLt
  have hx := x.isLt
  have hy := y.isLt
  have hn := n.isLt
  have hw : w.toNat = c + x.val * 256 + y.val * 16 + n.toNat := by rw [BitVec.toNat_ofNat]; omega
  exact ⟨fieldF1_eq w f (by omega), fieldX_eq w x (by omega), fieldY_eq w y (by omega), fieldN_eq w n (by omega)⟩

/-- A skip on a decidable condition, the two advances of R101 added up. -/
theorem skipWhen_decide (p : Prop) [Decidable p] (s : State) :
    skipWhen (decide p) s = .next { s with pc := if p then s.pc + 4 else s.pc + 2, ret := .ok .none } :=
  (skipWhen_eq_next _ _ _).mpr (by simp [BitVec.add_assoc])

/-- Settles O21: the group nibble alone selects `SER` and `SNER` (R75), and `skipWhen_decide` with its condition. -/
theorem skipsOnARegister : Obligations.SkipsOnARegister := by
  intro s x y n
  refine ⟨?_, ?_, skipWhen_decide _ s, ?_⟩
  · obtain ⟨hf, hx, hy, -⟩ := fields_of_nibbles (c := 0x5000) 0x5#4 rfl x y n
    simp only [decode, hf, hx, hy]
  · obtain ⟨hf, hx, hy, -⟩ := fields_of_nibbles (c := 0x9000) 0x9#4 rfl x y n
    simp only [decode, hf, hx, hy]
  · have h := skipWhen_decide (s.getV x ≠ s.getV y) s
    rwa [ite_not] at h

end Sys2Proof

/-!
The step cycle (R100 to R109, `40_step_cycle.md`). One lemma says how an instruction ends: with its own host effect and
the latch as it was, or by raising a fault. What a step returns follows from it.
-/

namespace Sys2Proof.Machine

open Sys2Proof.Claims

/-! ### How an instruction ends -/

/-- The host effect an instruction returns when it raises no fault (R177). -/
def hostEffect : Instr → HostEffect
  | .cls => .clearScreen
  | .drw x y n => .drawSprite x y n
  | .skp x => .keyConditional x .ifPressed
  | .sknp x => .keyConditional x .ifNotPressed
  | .wkey x => .awaitKey x
  | _ => .none

theorem hostEffect_eq_none_iff (i : Instr) :
    hostEffect i = .none ↔ i.op ∉ [Op.cls, .drw, .skp, .sknp, .wkey] := by
  cases i <;> simp [hostEffect, Instr.op]

/-- A memory instruction ends as its access does, or raises before it (R52). -/
theorem withRun_returns_or_raises {last : Nat} {s t : State} {k : State → Result}
    (hk : ∀ u, k s = .next u → u.ret = .ok .none ∧ u.fault = s.fault) (h : withRun last s k = .next t) :
    (t.ret = .ok .none ∧ t.fault = s.fault) ∨ ∃ f, t = { s with fault := some f, ret := .fault f } := by
  obtain ⟨_, hrun⟩ | ⟨_, hrun⟩ := withRun_cases last s k <;> rw [hrun] at h
  · exact .inl (hk t h)
  · exact .inr ⟨_, (raise_eq_next _ s t).mp h⟩

/-- An instruction returns its own effect and leaves the latch as it was, or raises a fault, all its assignments
discarded (R214). -/
theorem exec_returns_or_raises {i : Instr} {s t : State} (h : exec i s = .next t) :
    (t.ret = .ok (hostEffect i) ∧ t.fault = s.fault) ∨ ∃ f, t = { s with fault := some f, ret := .fault f } := by
  cases i
  -- The four that can fault.
  case ret =>
    obtain ⟨_, rfl⟩ | ⟨_, _, _, rfl⟩ := execRet_cases h
    · exact .inr ⟨_, rfl⟩
    · exact .inl ⟨rfl, rfl⟩
  case bcd | stm | ldm =>
    simp only [exec, execBcd, execStm, execLdm] at h
    exact withRun_returns_or_raises (fun u hu => by simp [(complete_eq_next _ u).mp hu]) h
  -- The skips branch, on pc alone.
  case se | sne | ser | sner =>
    obtain rfl := (skipWhen_eq_next _ _ _).mp h
    exact .inl ⟨rfl, rfl⟩
  case skp | sknp =>
    obtain rfl := (keyQueryWith_eq_next _ _ _ _ _).mp h
    exact .inl ⟨rfl, rfl⟩
  -- The other meanings complete or emit without a branch (`CALL` has no stack limit).
  all_goals
    cases h
    exact .inl ⟨rfl, rfl⟩

theorem exec_ok_effect {i : Instr} {s t : State} {e : HostEffect} (h : exec i s = .next t) (he : t.ret = .ok e) :
    e = hostEffect i := by
  obtain ⟨hret, -⟩ | ⟨f, rfl⟩ := exec_returns_or_raises h
  · cases he.symm.trans hret
    rfl
  · cases he

/-- The no-operation of an undefined word advances pc and returns `Ok(None)` (R103, decision D12). -/
theorem execNop_eq_next (s t : State) : execNop s = .next t ↔ t = { s with pc := s.pc + 2, ret := .ok .none } :=
  complete_eq_next s.advance t

/-- Settles O43: the running case of `step_cases` runs one word, and the effect of an instruction is its `hostEffect`. -/
theorem onlyFiveInstructionsEmit : Obligations.OnlyFiveInstructionsEmit := by
  refine ⟨fun s hf hh hpc => ?_, fun i s t e h he => ?_, fun s t h => ?_⟩
  · rw [step_eq_runWord hf hh hpc]
    exact runWord_cases s.fetchedWord s
  · rw [exec_ok_effect h he]
    exact hostEffect_eq_none_iff i
  · obtain rfl := (execNop_eq_next s t).mp h
    rfl

/-! ### A halted core -/

/-- Settles O8: by `step_cases`, a step behind either closed gate just completes. -/
theorem haltedStepChangesNothing : Obligations.HaltedStepChangesNothing := by
  intro s hh
  obtain ⟨_, e⟩ | ⟨_, _, e⟩ | ⟨_, hrun, _⟩ | ⟨_, hrun, _⟩ := step_cases s
  · exact e
  · exact e
  · simp [hh] at hrun
  · simp [hh] at hrun

/-! ### pc is advanced before the instruction executes (R101) -/

/-- A taken skip adds its 2 to the pc already advanced. -/
theorem skipWhen_taken_pc {c : Bool} (hc : c = true) (s : State) :
    ∃ t, skipWhen c s = .next t ∧ t.pc = s.pc + 2 + 2 :=
  ⟨_, (skipWhen_eq_next c s _).mpr rfl, if_pos hc⟩

/-- A key query whose answer satisfies its selector skips as the others do (decision D23). -/
theorem keyQueryWith_taken_pc {p : Bool} {sel : KeySelector} (hp : answerSatisfies sel p = true) (x : RegIdx)
    (s : State) : ∃ t, keyQueryWith p x sel s = .next t ∧ t.pc = s.pc + 2 + 2 :=
  ⟨_, (keyQueryWith_eq_next p x sel s _).mpr rfl, if_pos hp⟩

/-- Settles O11: `CALL` pushes the advanced pc, every taken skip is one of the two lemmas above, and `WKEY` halts on the
advanced state. -/
theorem pcIsAdvancedBeforeExecution : Obligations.PcIsAdvancedBeforeExecution := by
  intro s
  refine ⟨fun nnn => ⟨_, execCall_next nnn s, rfl⟩, ?se, ?sne, ?ser, ?sner, ?skp, ?sknp, ?wkey⟩
  case se | sne | ser | sner => exact fun _ _ h => skipWhen_taken_pc (decide_eq_true h) s
  case skp | sknp => exact fun x => keyQueryWith_taken_pc rfl x s
  case wkey => exact fun x => ⟨_, rfl, rfl, rfl⟩

end Sys2Proof.Machine

/-!
Control flow (R117, R120, R121, `41_control_flow.md`). The fields of a word written as its group nibble and an address, or
as its group nibble, a register and an immediate, say how it decodes; the meanings are a jump and `skipWhen_decide`.
-/

namespace Sys2Proof.Machine

open Sys2Proof.Claims

/-! ### The fields of a word in the address and the immediate format -/

/-- The fields of a word written as its group nibble `f` and a 12-bit address. -/
theorem fields_of_address {c : Nat} (f : BitVec 4) (hc : c = f.toNat * 4096) (nnn : Addr12) :
    let w := BitVec.ofNat 16 (c + nnn.toNat)
    fieldF1 w = f ∧ fieldNNN w = nnn := by
  intro w
  have hf := f.isLt
  have hnnn := nnn.isLt
  have hw : w.toNat = c + nnn.toNat := by rw [BitVec.toNat_ofNat]; omega
  exact ⟨fieldF1_eq w f (by omega), fieldNNN_eq w nnn (by omega)⟩

/-- The fields of a word written as its group nibble `f`, a register and an immediate. -/
theorem fields_of_immediate {c : Nat} (f : BitVec 4) (hc : c = f.toNat * 4096) (x : RegIdx) (nn : Byte) :
    let w := BitVec.ofNat 16 (c + x.val * 256 + nn.toNat)
    fieldF1 w = f ∧ fieldX w = x ∧ fieldNN w = nn := by
  intro w
  have hf := f.isLt
  have hx := x.isLt
  have hnn := nn.isLt
  have hw : w.toNat = c + x.val * 256 + nn.toNat := by rw [BitVec.toNat_ofNat]; omega
  exact ⟨fieldF1_eq w f (by omega), fieldX_eq w x (by omega), fieldNN_eq w nn (by omega)⟩

/-! ### `JP`, `SE` and `SNE` -/

/-- An address operand, written as the number it is (`zext_16` of R117). -/
theorem addrOperand_eq_ofNat (nnn : Addr12) : addrOperand nnn = BitVec.ofNat 16 nnn.toNat :=
  (BitVec.ofNat_toNat 16 nnn).symm

/-- A jump replaces pc without advancing it first. -/
theorem execJp_eq_next (nnn : Addr12) (s t : State) :
    execJp nnn s = .next t ↔ t = { s with pc := addrOperand nnn, ret := .ok .none } :=
  complete_eq_next (s.jump (addrOperand nnn)) t

/-- Settles O15: the group nibble selects `JP`, whose target is the word's address field. -/
theorem jumpSetsThePc : Obligations.JumpSetsThePc := by
  intro s nnn
  constructor
  · obtain ⟨hf, hnnn⟩ := fields_of_address (c := 0x1000) 0x1#4 rfl nnn
    simp only [decode, hf, hnnn]
  · rw [← addrOperand_eq_ofNat]
    exact (execJp_eq_next nnn s _).mpr rfl

/-- Settles O20: the group nibble selects `SE` or `SNE`, and `skipWhen_decide` with its condition. -/
theorem skipsOnAnImmediate : Obligations.SkipsOnAnImmediate := by
  intro s x nn
  refine ⟨?_, ?_, skipWhen_decide _ s, ?_⟩
  · obtain ⟨hf, hx, hnn⟩ := fields_of_immediate (c := 0x3000) 0x3#4 rfl x nn
    simp only [decode, hf, hx, hnn]
  · obtain ⟨hf, hx, hnn⟩ := fields_of_immediate (c := 0x4000) 0x4#4 rfl x nn
    simp only [decode, hf, hx, hnn]
  · have h := skipWhen_decide (s.getV x ≠ nn) s
    rwa [ite_not] at h

end Sys2Proof.Machine

/-!
Load, arithmetic, logic and shift (`42_load_alu_random.md`). Every meaning here but the unused selectors is one
`writeReg` or one `writeFlagged`, and one lemma for each says what registers it leaves. The exact laws of R130 are then
about the written values alone: what each flag and each result is as a natural number.
-/

namespace Sys2Proof.Machine

open Sys2Proof.Claims

/-! ### The unused selectors of group 0x8 -/

theorem decode_unused_selector {w : Word} (hf : fieldF1 w = 0x8#4)
    (hn : (fieldN w).toNat ∈ [8, 9, 10, 11, 12, 13, 15]) : decode w = .undefined .group8 := by
  rw [decode_group8 hf]
  unfold decodeGroup8
  split
  case h_10 => rfl
  -- The nine selectors of R73 are not in the list.
  all_goals
    next h => simp [h] at hn

/-- Settles O9: no row of the table has the selector, so the word is undefined and runs as `execNop`. -/
theorem unusedGroup8SelectorsAreNoOperations : Obligations.UnusedGroup8SelectorsAreNoOperations := by
  intro s x y n hn
  have hlt : n < 16 := by
    simp only [List.mem_cons, List.not_mem_nil, or_false] at hn
    omega
  have hnibble : (BitVec.ofNat 4 n).toNat = n := Nat.mod_eq_of_lt hlt
  obtain ⟨hf, -, -, hN⟩ := fields_of_nibbles (c := 0x8000) 0x8#4 rfl x y (BitVec.ofNat 4 n)
  rw [hnibble] at hf hN
  have hdecode := decode_unused_selector hf (by rwa [hN, hnibble])
  rw [runWord, hdecode]
  exact (execNop_eq_next s _).mpr rfl

/-! ### What a meaning of this family leaves in the registers -/

section
variable {i : Instr} {s : State} {x : RegIdx}

theorem registerResult_of_writeReg {v : Byte} (h : exec i s = writeReg x v s) :
    RegisterResult i s fun r => if r = x then v else s.getV r :=
  ⟨_, h.trans ((writeReg_eq_next x v s _).mpr rfl), fun r => s.getV_setV x r v, rfl⟩

theorem flagResult_of_writeFlagged {f v : Byte} (h : exec i s = writeFlagged x f v s) : FlagResult i s x f v :=
  ⟨_, h.trans ((writeFlagged_eq_next x f v s _).mpr rfl), fun r => s.getV_setFlagged x r f v, rfl⟩

/-- The destination alone, as a number. -/
theorem exists_next_of_writeReg {v : Byte} {n : Nat} (h : exec i s = writeReg x v s) (hv : v.toNat = n) :
    ∃ t, exec i s = .next t ∧ (t.getV x).toNat = n := by
  obtain ⟨t, hexec, hregs, -⟩ := registerResult_of_writeReg h
  exact ⟨t, hexec, by simp [hregs, hv]⟩

/-- The destination and the flag as numbers; the flag stays visible since the destination is another register. -/
theorem exists_next_of_writeFlagged {f v : Byte} {n c : Nat} (hx : x ≠ 15) (h : exec i s = writeFlagged x f v s)
    (hv : v.toNat = n) (hf : f.toNat = c) :
    ∃ t, exec i s = .next t ∧ (t.getV x).toNat = n ∧ (t.getV 15).toNat = c := by
  obtain ⟨t, hexec, hregs, -⟩ := flagResult_of_writeFlagged h
  exact ⟨t, hexec, by simp [hregs, hv], by simp [hregs, hx.symm, hf]⟩

end

/-- Settles O22: the group nibble selects `LD` or `ADD`, and both are one register write. -/
theorem loadAndAddImmediate : Obligations.LoadAndAddImmediate := by
  intro s x nn
  refine ⟨?_, ?_, registerResult_of_writeReg rfl, ?_⟩
  · obtain ⟨hf, hx, hnn⟩ := fields_of_immediate (c := 0x6000) 0x6#4 rfl x nn
    simp only [decode, hf, hx, hnn]
  · obtain ⟨hf, hx, hnn⟩ := fields_of_immediate (c := 0x7000) 0x7#4 rfl x nn
    simp only [decode, hf, hx, hnn]
  · have hsum : s.getV x + nn = BitVec.ofNat 8 (((s.getV x).toNat + nn.toNat) % 256) :=
      BitVec.eq_of_toNat_eq (by simp)
    rw [← hsum]
    exact registerResult_of_writeReg rfl

/-! ### The flags and results of R130 as natural numbers -/

section
variable (a b : Byte)

theorem carryFlag_toNat : (carryFlag a b).toNat = if 255 < a.toNat + b.toNat then 1 else 0 := by
  unfold carryFlag; split <;> rfl

theorem notBorrowFlag_toNat : (notBorrowFlag a b).toNat = if b.toNat ≤ a.toNat then 1 else 0 := by
  unfold notBorrowFlag; split <;> rfl

theorem lowBitFlag_toNat : (lowBitFlag a).toNat = a.toNat % 2 := by
  rw [lowBitFlag, BitVec.toNat_and]
  exact Nat.and_one_is_mod _

theorem highBitFlag_toNat : (highBitFlag a).toNat = a.toNat / 128 := by
  rw [highBitFlag, BitVec.toNat_ushiftRight, Nat.shiftRight_eq_div_pow]

/-- A difference of bytes, the borrow written out. -/
theorem byte_sub_toNat : (a - b).toNat = if b.toNat ≤ a.toNat then a.toNat - b.toNat else a.toNat + 256 - b.toNat := by
  have ha := a.isLt
  have hb := b.isLt
  rw [BitVec.toNat_sub]
  split <;> omega

theorem byte_shiftRight_one_toNat : (a >>> 1).toNat = a.toNat / 2 := by
  rw [BitVec.toNat_ushiftRight, Nat.shiftRight_eq_div_pow]

theorem byte_shiftLeft_one_toNat : (a <<< 1).toNat = a.toNat * 2 % 256 := by
  rw [BitVec.toNat_shiftLeft, Nat.shiftLeft_eq]

end

theorem State.shiftSource_toNat (s : State) (x y : RegIdx) :
    (s.shiftSource x y).toNat = if s.shiftQuirk then (s.getV x).toNat else (s.getV y).toNat :=
  apply_ite BitVec.toNat _ _ _

/-- Settles O26: each meaning is one register write, and the numbers are those of the lemmas above. -/
theorem exactArithmeticLaws : Obligations.ExactArithmeticLaws := by
  rintro s x y _ _ hx rfl rfl
  rw [← State.shiftSource_toNat]
  refine ⟨?addr, ?sub, ?subn, ?shr, ?shl, ?or, ?and, ?xor, fun nn => ?add⟩
  case addr => exact exists_next_of_writeFlagged hx rfl (BitVec.toNat_add _ _) (carryFlag_toNat _ _)
  case sub | subn => exact exists_next_of_writeFlagged hx rfl (byte_sub_toNat _ _) (notBorrowFlag_toNat _ _)
  case shr => exact exists_next_of_writeFlagged hx rfl (byte_shiftRight_one_toNat _) (lowBitFlag_toNat _)
  case shl => exact exists_next_of_writeFlagged hx rfl (byte_shiftLeft_one_toNat _) (highBitFlag_toNat _)
  case or => exact exists_next_of_writeReg rfl (BitVec.toNat_or _ _)
  case and => exact exists_next_of_writeReg rfl (BitVec.toNat_and _ _)
  case xor => exact exists_next_of_writeReg rfl (BitVec.toNat_xor _ _)
  case add => exact exists_next_of_writeReg rfl (BitVec.toNat_add _ _)

end Sys2Proof.Machine

/-!
The index register (R150, R151, `43_index_memory.md`). `LDI` and `ADDI` each complete with one write of I; what is left to
say is which word selects `ADDI` and what number the wrapped sum is.
-/

namespace Sys2Proof.Machine

/-- The fields of a word written as a row's code, that is its group nibble `f` and its selector byte `nn`, and a register
(R74). -/
theorem fields_of_selector {c : Nat} (f : BitVec 4) (nn : Byte) (hc : c = f.toNat * 4096 + nn.toNat) (x : RegIdx) :
    let w := BitVec.ofNat 16 (c + x.val * 256)
    fieldF1 w = f ∧ fieldX w = x ∧ fieldNN w = nn := by
  rw [hc, Nat.add_right_comm]
  exact fields_of_immediate f rfl x nn

/-- `LDI` replaces I and advances pc. -/
theorem execLdi_eq_next (nnn : Addr12) (s t : State) :
    execLdi nnn s = .next t ↔ t = { s with I := addrOperand nnn, pc := s.pc + 2, ret := .ok .none } :=
  complete_eq_next { s.advance with I := addrOperand nnn } t

/-- The 16-bit sum of R151 as a number. -/
theorem add_zext16_toNat (i : Word) (v : Byte) : (i + zext16 v).toNat = (i.toNat + v.toNat) % 65536 := by
  rw [BitVec.toNat_add, zext16, BitVec.toNat_setWidth_of_le (by decide)]

/-- Settles O28: `ADDI` is the one flagged write of I, and register 15 holds the flag of the wrapped sum. -/
theorem indexLoadAndAdd : Obligations.IndexLoadAndAdd := by
  intro s nnn x
  refine ⟨?decodeLdi, ?decodeAddi, ?ldi, ?addi⟩
  case decodeLdi =>
    obtain ⟨hf, hnnn⟩ := fields_of_address (c := 0xA000) 0xA#4 rfl nnn
    simp only [decode, hf, hnnn]
  case decodeAddi =>
    obtain ⟨hf, hx, hnn⟩ := fields_of_selector (c := 0xF01E) 0xF#4 0x1E#8 rfl x
    simp only [decode_groupF hf, decodeGroupF, hx, hnn]
  case ldi =>
    rw [← addrOperand_eq_ofNat]
    exact (execLdi_eq_next nnn s _).mpr rfl
  case addi =>
    exact ⟨_, (writeIndexFlagged_eq_next _ s _).mpr rfl, add_zext16_toNat _ _, fun r => s.getV_setV 15 r _, rfl⟩

end Sys2Proof.Machine

/-!
Host effects (R170, `45_host_effects.md`). `CLS` has no operand, so its word is one constant, and its meaning emits
without a branch.
-/

namespace Sys2Proof.Machine

/-- `CLS` advances pc and returns its request. -/
theorem execCls_eq_next (s t : State) :
    execCls s = .next t ↔ t = { s with pc := s.pc + 2, ret := .ok .clearScreen } :=
  emit_eq_next .clearScreen s.advance t

/-- Settles O38: in group 0 the address field 0E0 selects `CLS` (R73), and `CLS` only emits. -/
theorem clearScreenIsOnlyEmitted : Obligations.ClearScreenIsOnlyEmitted := by
  intro s
  constructor
  · rw [decode_group0 (by decide)]
    exact if_pos (by decide)
  · exact (execCls_eq_next s _).mpr rfl

end Sys2Proof.Machine

/-!
The disassembler on words it does not recognise (R198, R200, `46_codec.md`). A word the codec recognises is a word of the
opcode table, so it decodes; and the codec asks a word of group 5 or 9 for a last nibble of 0.
-/

namespace Sys2Proof.Machine

section
variable {w : Word} {o : Op}

/-- The codec's mask requires all that the interpreter's mask does (R92). -/
theorem match_of_codecMatch (h : w &&& o.codecMask = o.code) : w &&& o.mask = o.code := by
  cases o
  case ser | sner => exact (and_F000_eq_iff rfl).mpr ((and_F00F_eq_iff rfl).mp h).1
  all_goals exact h

theorem fieldN_eq_zero_of_codecMatch (h : w &&& o.codecMask = o.code) (ho : o = .ser ∨ o = .sner) :
    fieldN w = 0 := by
  obtain rfl | rfl := ho
  · exact ((and_F00F_eq_iff rfl).mp h).2
  · exact ((and_F00F_eq_iff rfl).mp h).2

theorem codecMatch_of_opOfWord? (h : opOfWord? w = some o) : w &&& o.codecMask = o.code := by
  simpa using List.find?_some h

/-- A recognised word decodes to an instruction of the row it is recognised as. -/
theorem decode_of_opOfWord? (h : opOfWord? w = some o) : ∃ i, decode w = .instr i ∧ i.op = o := by
  obtain ⟨i, hi, hop, -⟩ := decode_of_match (match_of_codecMatch (codecMatch_of_opOfWord? h))
  exact ⟨i, hi, hop⟩

theorem opOfWord?_of_undefined {g : UndefinedGroup} (h : decode w = .undefined g) : opOfWord? w = none := by
  rw [Option.eq_none_iff_forall_ne_some]
  intro o ho
  obtain ⟨i, hi, -⟩ := decode_of_opOfWord? ho
  cases h.symm.trans hi

/-- A word that decodes to `SER` or `SNER`, whose last nibble the interpreter ignores, is recognised only with a last
nibble of 0. -/
theorem opOfWord?_of_nonzero_nibble {i : Instr} (h : decode w = .instr i) (hop : i.op = .ser ∨ i.op = .sner)
    (hn : fieldN w ≠ 0) : opOfWord? w = none := by
  rw [Option.eq_none_iff_forall_ne_some]
  intro o ho
  obtain ⟨j, hj, rfl⟩ := decode_of_opOfWord? ho
  cases h.symm.trans hj
  exact hn (fieldN_eq_zero_of_codecMatch (codecMatch_of_opOfWord? ho) hop)

end

theorem decode_group5 {w : Word} (hf : fieldF1 w = 0x5#4) : decode w = .instr (.ser (fieldX w) (fieldY w)) := by
  rw [decode, hf]; rfl

theorem decode_group9 {w : Word} (hf : fieldF1 w = 0x9#4) : decode w = .instr (.sner (fieldX w) (fieldY w)) := by
  rw [decode, hf]; rfl

/-- One word prints as its line alone, with no line feed (R201). -/
theorem disassemble_bytesOfWord (w : Word) : disassemble (bytesOfWord w) = String.ofList (wordLine w) := by
  simp [disassemble, bytesOfWord, wordsOfBytes, wordOfBytes_high_low]

theorem disassemble_eq_empty_of_unrecognised {w : Word} (h : opOfWord? w = none) :
    disassemble (bytesOfWord w) = "" := by
  rw [disassemble_bytesOfWord, wordLine, h]

/-- Settles O59: an undefined word is of no row, and a word of group 5 or 9 is of the row `SER` or `SNER`, which the codec
recognises only with a last nibble of 0. -/
theorem unrecognisedWordPrintsEmpty : Obligations.UnrecognisedWordPrintsEmpty := by
  rintro w (⟨g, hg⟩ | ⟨hgroup, hlast⟩) <;> apply disassemble_eq_empty_of_unrecognised
  · exact opOfWord?_of_undefined hg
  · have hn : fieldN w ≠ 0 := fun h => hlast (by rw [← fieldN_toNat, h]; rfl)
    obtain h5 | h9 := hgroup
    · exact opOfWord?_of_nonzero_nibble (decode_group5 (fieldF1_eq w 0x5#4 h5)) (.inl rfl) hn
    · exact opOfWord?_of_nonzero_nibble (decode_group9 (fieldF1_eq w 0x9#4 h9)) (.inr rfl) hn

end Sys2Proof.Machine

/-!
Construction (R240, R56, `70_reset_and_hazards.md`). A program of at most 3584 bytes stored at 512 fits in memory, so
`Memory.read_writeRun` says what every address reads: the program's byte inside the program, and what an unlisted address
reads as elsewhere, the font and then zeros.
-/

namespace Sys2Proof.Machine

/-! ### An unlisted address (R56) -/

theorem font_length : Config.font.length = 80 := rfl

theorem unlistedByte_font {a : Nat} (h : a < 80) : some (unlistedByte a) = Config.font[a]? := by
  have ha : a < Config.font.length := h
  rw [unlistedByte, List.getD_eq_getElem _ _ ha, List.getElem?_eq_getElem ha]

theorem unlistedByte_eq_zero {a : Nat} (h : 80 ≤ a) : unlistedByte a = 0 :=
  List.getD_eq_default _ _ (font_length ▸ h)

/-! ### The memory with a program in it (R240) -/

/-- The state `construct` gives for a program that fits, tied to it by `construct_eq_some`. -/
def State.loaded (sq iq : Bool) (p : List Byte) : State :=
  { State.reset with shiftQuirk := sq, indexQuirk := iq, mem := Memory.writeRun State.reset.mem Config.progBase p }

section
variable {sq iq : Bool} {p : List Byte}

theorem construct_eq_some (h : p.length ≤ 3584) : construct sq iq p = some (State.loaded sq iq p) :=
  if_pos h

theorem State.loaded_read (h : p.length ≤ 3584) (a : Nat) :
    Memory.read (State.loaded sq iq p).mem a =
      if 512 ≤ a ∧ a < 512 + p.length then p.getD (a - 512) 0 else unlistedByte a :=
  Memory.read_writeRun [] 512 p (by omega) a

theorem State.loaded_read_program (h : p.length ≤ 3584) {j : Nat} (hj : j < p.length) :
    some (Memory.read (State.loaded sq iq p).mem (512 + j)) = p[j]? := by
  rw [State.loaded_read h, if_pos (by omega), Nat.add_sub_cancel_left, List.getD_eq_getElem _ _ hj,
    List.getElem?_eq_getElem hj]

theorem State.loaded_read_outside (h : p.length ≤ 3584) {a : Nat} (ha : a < 512 ∨ 512 + p.length ≤ a) :
    Memory.read (State.loaded sq iq p).mem a = unlistedByte a := by
  rw [State.loaded_read h, if_neg (by omega)]

theorem State.loaded_read_zero (h : p.length ≤ 3584) {a : Nat} (hfont : 80 ≤ a)
    (ha : a < 512 ∨ 512 + p.length ≤ a) : Memory.read (State.loaded sq iq p).mem a = 0 := by
  rw [State.loaded_read_outside h ha, unlistedByte_eq_zero hfont]

end

/-- Settles O49: the fields are those of `State.reset`, and each range of addresses is inside or outside the program. -/
theorem constructLeavesTheStatedState : Obligations.ConstructLeavesTheStatedState := by
  intro sq iq p hp
  refine ⟨State.loaded sq iq p, construct_eq_some hp, rfl, rfl, rfl, rfl, rfl, rfl, rfl,
    fun d j hd hj => ?font, fun a hlo hhi => ?below, fun j hj => ?program, fun a hlo _ => ?above⟩
  case font => rw [State.loaded_read_outside hp (by omega), unlistedByte_font (by omega)]
  case below => exact State.loaded_read_zero hp hlo (.inl hhi)
  case program => exact State.loaded_read_program hp hj
  case above => exact State.loaded_read_zero hp (by omega) (.inr hlo)

end Sys2Proof.Machine

/-!
Canonical words (R80, R90, `30_encoding.md` section 5). A word agrees with a row under the codec's mask exactly when it
is the sum of R90 over its own fields; and the operands an instruction or a checked source line has are the fields of
their sum. So the words of the codec, the encodings, and what the decoder gives back are the same.
-/

namespace Sys2Proof

open Sys2Proof.Machine Sys2Proof.Claims

/-! ### A word of the codec is the sum of its fields -/

/-- The masks of R92 clear exactly the fields of the row's format, as numbers. -/
theorem codecMatch_iff_place (w : Word) (o : Op) :
    w &&& o.codecMask = o.code ↔ w.toNat = o.format.place o.code.toNat (operandsOf o.format w.toNat) := by
  have hw := w.isLt
  rw [← BitVec.toNat_inj]
  cases o
  case cls | ret =>
    change (w &&& 0xFFFF#16).toNat = _ ↔ _
    rw [and_FFFF]
    rfl
  case jp | call | ldi | jpv | se | sne | ld | add | rnd | drw =>
    change (w &&& 0xF000#16).toNat = _ ↔ _
    rw [and_F000]
    simp only [Op.code, Op.format, operandsOf, Format.place, BitVec.reduceToNat]
    omega
  case ser | sner | mov | or | and | xor | addr | sub | shr | subn | shl =>
    change (w &&& 0xF00F#16).toNat = _ ↔ _
    rw [and_F00F]
    simp only [Op.code, Op.format, operandsOf, Format.place, BitVec.reduceToNat]
    omega
  case skp | sknp | gdt | wkey | sdt | sst | addi | font | bcd | stm | ldm =>
    change (w &&& 0xF0FF#16).toNat = _ ↔ _
    rw [and_F0FF]
    simp only [Op.code, Op.format, operandsOf, Format.place, BitVec.reduceToNat]
    omega

/-! ### Operands that pass the check of R87 are the fields of their word -/

theorem Format.check_eq_none_iff (f : Format) (vs : List Nat) :
    f.check vs = none ↔ vs.length = f.limits.length ∧ operandsFit vs f.limits = true := by
  unfold Format.check
  split
  · simp [*]
  · split <;> simp_all

section
variable {vs : List Nat}

theorem eq_nil_of_check (h : Format.fixed.check vs = none) : vs = [] :=
  List.length_eq_zero_iff.mp ((Format.check_eq_none_iff _ _).mp h).1

theorem exists_of_check_addr (h : Format.addr.check vs = none) : ∃ a, vs = [a] ∧ a < 4096 := by
  obtain ⟨hlen, hfit⟩ := (Format.check_eq_none_iff _ _).mp h
  obtain ⟨a, rfl⟩ := List.length_eq_one_iff.mp hlen
  exact ⟨a, rfl, by simpa [operandsFit, Format.limits] using hfit⟩

theorem exists_of_check_regSel (h : Format.regSel.check vs = none) : ∃ x, vs = [x] ∧ x < 16 := by
  obtain ⟨hlen, hfit⟩ := (Format.check_eq_none_iff _ _).mp h
  obtain ⟨x, rfl⟩ := List.length_eq_one_iff.mp hlen
  exact ⟨x, rfl, by simpa [operandsFit, Format.limits] using hfit⟩

theorem exists_of_check_regImm (h : Format.regImm.check vs = none) : ∃ x k, vs = [x, k] ∧ x < 16 ∧ k < 256 := by
  obtain ⟨hlen, hfit⟩ := (Format.check_eq_none_iff _ _).mp h
  obtain ⟨x, k, rfl⟩ := List.length_eq_two.mp hlen
  exact ⟨x, k, rfl, by simpa [operandsFit, Format.limits] using hfit⟩

theorem exists_of_check_regReg (h : Format.regReg.check vs = none) : ∃ x y, vs = [x, y] ∧ x < 16 ∧ y < 16 := by
  obtain ⟨hlen, hfit⟩ := (Format.check_eq_none_iff _ _).mp h
  obtain ⟨x, y, rfl⟩ := List.length_eq_two.mp hlen
  exact ⟨x, y, rfl, by simpa [operandsFit, Format.limits] using hfit⟩

theorem exists_of_check_regRegN (h : Format.regRegN.check vs = none) :
    ∃ x y n, vs = [x, y, n] ∧ x < 16 ∧ y < 16 ∧ n < 16 := by
  obtain ⟨hlen, hfit⟩ := (Format.check_eq_none_iff _ _).mp h
  obtain ⟨x, y, n, rfl⟩ := List.length_eq_three.mp hlen
  exact ⟨x, y, n, rfl, by simpa [operandsFit, Format.limits] using hfit⟩

end

/-- The sum of R90 stays below 2^16, and its digits are the operands it was made of. -/
theorem place_of_check (o : Op) {vs : List Nat} (h : o.format.check vs = none) :
    o.format.place o.code.toNat vs < 65536 ∧ operandsOf o.format (o.format.place o.code.toNat vs) = vs := by
  cases o
  case cls | ret =>
    obtain rfl := eq_nil_of_check h
    exact ⟨by decide, rfl⟩
  case jp | call | ldi | jpv =>
    obtain ⟨a, rfl, ha⟩ := exists_of_check_addr h
    simp only [Op.code, Op.format, operandsOf, Format.place, BitVec.reduceToNat, List.cons.injEq, and_true]
    omega
  case se | sne | ld | add | rnd =>
    obtain ⟨x, k, rfl, hx, hk⟩ := exists_of_check_regImm h
    simp only [Op.code, Op.format, operandsOf, Format.place, BitVec.reduceToNat, List.cons.injEq, and_true]
    omega
  case ser | sner | mov | or | and | xor | addr | sub | shr | subn | shl =>
    obtain ⟨x, y, rfl, hx, hy⟩ := exists_of_check_regReg h
    simp only [Op.code, Op.format, operandsOf, Format.place, BitVec.reduceToNat, List.cons.injEq, and_true]
    omega
  case drw =>
    obtain ⟨x, y, n, rfl, hx, hy, hn⟩ := exists_of_check_regRegN h
    simp only [Op.code, Op.format, operandsOf, Format.place, BitVec.reduceToNat, List.cons.injEq, and_true]
    omega
  case skp | sknp | gdt | wkey | sdt | sst | addi | font | bcd | stm | ldm =>
    obtain ⟨x, rfl, hx⟩ := exists_of_check_regSel h
    simp only [Op.code, Op.format, operandsOf, Format.place, BitVec.reduceToNat, List.cons.injEq, and_true]
    omega

section
variable {o : Op} {vs : List Nat}

theorem word_toNat_of_check (h : o.format.check vs = none) : (o.word vs).toNat = o.format.place o.code.toNat vs :=
  Laws.Canonical.word_toNat o vs (place_of_check o h).1

theorem formatFields_word (h : o.format.check vs = none) : formatFields o.format (o.word vs) = vs := by
  rw [formatFields_eq_operandsOf, word_toNat_of_check h, (place_of_check o h).2]

theorem codecMatch_word (h : o.format.check vs = none) : o.word vs &&& o.codecMask = o.code := by
  rw [codecMatch_iff_place, word_toNat_of_check h, (place_of_check o h).2]

end

/-- A word that matches under the codec's mask is the word of its own fields (R80). -/
theorem word_formatFields {w : Word} {o : Op} (h : w &&& o.codecMask = o.code) :
    o.word (formatFields o.format w) = w := by
  rw [formatFields_eq_operandsOf, Op.word, ← (codecMatch_iff_place w o).mp h, BitVec.ofNat_toNat, BitVec.setWidth_eq]

/-! ### Instructions and their encodings -/

/-- An instruction is its row and its operands. -/
theorem Instr.eq_of_op_operands {i j : Instr} (hop : i.op = j.op) (hargs : i.operands = j.operands) : i = j := by
  cases i <;> cases j <;> cases hop <;> simp_all [Instr.operands, ← Fin.ext_iff, BitVec.toNat_inj]

/-- Every operand of an instruction fits its field (R72). -/
theorem Instr.check_operands (i : Instr) : i.op.format.check i.operands = none := by
  rw [Format.check_eq_none_iff]
  cases i
  case cls | ret => exact ⟨rfl, rfl⟩
  case jp a | call a | ldi a | jpv a =>
    simpa [Instr.op, Op.format, Format.limits, Instr.operands, operandsFit] using a.isLt
  case se x k | sne x k | ld x k | add x k | rnd x k =>
    simpa [Instr.op, Op.format, Format.limits, Instr.operands, operandsFit] using k.isLt
  case drw x y n =>
    simpa [Instr.op, Op.format, Format.limits, Instr.operands, operandsFit] using n.isLt
  -- The operands that are left are register names.
  all_goals simp [Instr.op, Op.format, Format.limits, Instr.operands, operandsFit]

theorem codecMatch_encode (i : Instr) : encode i &&& i.op.codecMask = i.op.code :=
  codecMatch_word i.check_operands

/-- The decoded instruction has the row of the encoding and, as operands, the fields of its word. -/
theorem decode_encode (i : Instr) : decode (encode i) = .instr i := by
  obtain ⟨j, hj, hop, hargs⟩ := decode_of_match (match_of_codecMatch (codecMatch_encode i))
  rw [hj, Instr.eq_of_op_operands hop (hargs.trans (formatFields_word i.check_operands))]

/-- Settles O1: `decode_encode`, and the two bytes of a word join to it again. -/
theorem encodedInstructionDecodesToItself : Obligations.EncodedInstructionDecodesToItself := by
  refine fun i => ⟨decode_encode i, fun rest => ?_⟩
  rw [encodeBytes, bytesOfWord, List.cons_append, List.cons_append, List.nil_append, decodeBytes,
    wordOfBytes_high_low, decode_encode]

/-! ### The words the codec recognises (R80, R198) -/

/-- No two rows share a word (R74). -/
theorem op_unique_of_codecMatch {w : Word} {o p : Op} (ho : w &&& o.codecMask = o.code)
    (hp : w &&& p.codecMask = p.code) : o = p := by
  obtain ⟨-, hdisjoint, -⟩ := decodeFollowsTheOpcodeTable
  exact hdisjoint w o p (match_of_codecMatch ho) (match_of_codecMatch hp)

theorem Op.mem_all (o : Op) : o ∈ Op.all := by cases o <;> decide

/-- The search of the codec finds the row, since it is the only one that matches. -/
theorem opOfWord?_eq_some_iff {w : Word} {o : Op} : opOfWord? w = some o ↔ w &&& o.codecMask = o.code := by
  refine ⟨codecMatch_of_opOfWord?, fun h => ?_⟩
  cases hfind : opOfWord? w with
  | none => simpa [h] using List.find?_eq_none.mp hfind o o.mem_all
  | some p => rw [op_unique_of_codecMatch (codecMatch_of_opOfWord? hfind) h]

/-- A recognised word is the encoding of the instruction it decodes to. -/
theorem exists_encode_eq {w : Word} {o : Op} (h : w &&& o.codecMask = o.code) :
    ∃ i : Instr, i.op = o ∧ encode i = w := by
  obtain ⟨i, -, rfl, hargs⟩ := decode_of_match (match_of_codecMatch h)
  exact ⟨i, rfl, by rw [encode, hargs, word_formatFields h]⟩

/-- Settles O5: a word is recognised where it matches, and it matches where it is an encoding. -/
theorem canonicalWordsAreTheEncodings : Obligations.CanonicalWordsAreTheEncodings := by
  intro w o
  rw [opOfWord?_eq_some_iff]
  refine ⟨exists_encode_eq, ?_⟩
  rintro ⟨i, rfl, rfl⟩
  exact codecMatch_encode i

/-! ### The undefined words (R76) -/

/-- The group nibble of a group of undefined words. -/
def UndefinedGroup.nibble : UndefinedGroup → BitVec 4
  | .group0 => 0x0
  | .group8 => 0x8
  | .groupE => 0xE
  | .groupF => 0xF

section
variable {w : Word} {g : UndefinedGroup}

theorem decodeGroup0_eq_undefined_iff :
    decodeGroup0 w = .undefined g ↔ g = .group0 ∧ fieldNNN w ∉ [0x0E0#12, 0x0EE#12] := by
  unfold decodeGroup0
  split
  · simp [*]
  · split <;> simp [*, eq_comm (a := g)]

theorem decodeGroup8_eq_undefined_iff :
    decodeGroup8 w = .undefined g ↔
      g = .group8 ∧ fieldN w ∉ [0x0#4, 0x1#4, 0x2#4, 0x3#4, 0x4#4, 0x5#4, 0x6#4, 0x7#4, 0xE#4] := by
  unfold decodeGroup8
  split
  case h_10 => simp_all [eq_comm (a := g)]
  all_goals simp [*]

theorem decodeGroupE_eq_undefined_iff :
    decodeGroupE w = .undefined g ↔ g = .groupE ∧ fieldNN w ∉ [0x9E#8, 0xA1#8] := by
  unfold decodeGroupE
  split
  · simp [*]
  · split <;> simp [*, eq_comm (a := g)]

theorem decodeGroupF_eq_undefined_iff :
    decodeGroupF w = .undefined g ↔
      g = .groupF ∧ fieldNN w ∉ [0x07#8, 0x0A#8, 0x15#8, 0x18#8, 0x1E#8, 0x29#8, 0x33#8, 0x55#8, 0x65#8] := by
  unfold decodeGroupF
  split
  case h_10 => simp_all [eq_comm (a := g)]
  all_goals simp [*]

/-- An undefined word has the nibble of its group. -/
theorem fieldF1_of_undefined (h : decode w = .undefined g) : fieldF1 w = g.nibble := by
  unfold decode at h
  split at h
  case h_1 hf => obtain ⟨rfl, -⟩ := decodeGroup0_eq_undefined_iff.mp h; exact hf
  case h_9 hf => obtain ⟨rfl, -⟩ := decodeGroup8_eq_undefined_iff.mp h; exact hf
  case h_15 hf => obtain ⟨rfl, -⟩ := decodeGroupE_eq_undefined_iff.mp h; exact hf
  case h_16 =>
    obtain ⟨rfl, -⟩ := decodeGroupF_eq_undefined_iff.mp h
    -- The group nibble is none of the fifteen before.
    generalize fieldF1 w = f at *
    revert f
    decide
  all_goals cases h

/-- The group nibble leads to the group's own decoder. -/
theorem decode_eq_undefined_iff {d : Decoded} {p : Prop} (hd : fieldF1 w = g.nibble → decode w = d)
    (hp : d = .undefined g ↔ p) : decode w = .undefined g ↔ w.toNat / 4096 = g.nibble.toNat ∧ p := by
  rw [← fieldF1_toNat, BitVec.toNat_inj]
  constructor
  · intro h
    have hf := fieldF1_of_undefined h
    exact ⟨hf, hp.mp (hd hf ▸ h)⟩
  · rintro ⟨hf, h⟩
    exact (hd hf).trans (hp.mpr h)

end

/-- Settles O3: the four groups' own decoders, each behind its group nibble, and `execNop`. -/
theorem undefinedWordsAreNoOperations : Obligations.UndefinedWordsAreNoOperations := by
  intro w
  refine ⟨fun g hg s => ?run, ?group0, ?group8, ?groupE, ?groupF⟩
  case run =>
    rw [runWord, hg]
    exact (execNop_eq_next s _).mpr rfl
  case group0 =>
    rw [decode_eq_undefined_iff decode_group0 (decodeGroup0_eq_undefined_iff.trans (and_iff_right rfl))]
    simp only [UndefinedGroup.nibble, List.mem_cons, List.not_mem_nil, or_false, ← BitVec.toNat_inj, fieldNNN_toNat,
      BitVec.reduceToNat]
    omega
  case group8 =>
    rw [decode_eq_undefined_iff decode_group8 (decodeGroup8_eq_undefined_iff.trans (and_iff_right rfl))]
    simp only [UndefinedGroup.nibble, List.mem_cons, List.not_mem_nil, or_false, ← BitVec.toNat_inj, fieldN_toNat,
      BitVec.reduceToNat]
    omega
  case groupE =>
    rw [decode_eq_undefined_iff decode_groupE (decodeGroupE_eq_undefined_iff.trans (and_iff_right rfl))]
    simp [UndefinedGroup.nibble, ← BitVec.toNat_inj, fieldNN_toNat]
  case groupF =>
    rw [decode_eq_undefined_iff decode_groupF (decodeGroupF_eq_undefined_iff.trans (and_iff_right rfl))]
    simp [UndefinedGroup.nibble, ← BitVec.toNat_inj, fieldNN_toNat]

/-- Settles O4, each word computed by `decode`. -/
theorem sampleWordsDecode : Obligations.SampleWordsDecode := by
  unfold Obligations.SampleWordsDecode
  decide

end Sys2Proof

/-!
What every step does (R29, R47, R211, `40_step_cycle.md`, `60_exceptions.md`). A fact about `step` is a fact about
`exec`, behind the four cases of `step_cases`. The frame of the special state comes first: it leaves five instructions
to look at for the fault latch, and two for the stack.
-/

namespace Sys2Proof.Machine

open Sys2Proof.Claims

/-! ### Every call answers a next state -/

theorem withRun_total {last : Nat} {s : State} {k : State → Result} (hk : ∃ t, k s = .next t) :
    ∃ t, withRun last s k = .next t := by
  obtain ⟨_, e⟩ | ⟨_, e⟩ := withRun_cases last s k <;> rw [e]
  · exact hk
  · exact ⟨_, rfl⟩

theorem exec_total (i : Instr) (s : State) : ∃ t, exec i s = .next t := by
  cases i
  case ret =>
    simp only [exec, execRet]
    split <;> exact ⟨_, rfl⟩
  case bcd | stm | ldm =>
    simp only [exec, execBcd, execStm, execLdm]
    exact withRun_total ⟨_, rfl⟩
  case se | sne | ser | sner => exact ⟨_, (skipWhen_eq_next _ _ _).mpr rfl⟩
  case skp | sknp => exact ⟨_, (keyQueryWith_eq_next _ _ _ _ _).mpr rfl⟩
  -- The other meanings complete or emit without a branch (`CALL` has no stack limit).
  all_goals exact ⟨_, rfl⟩

theorem step_total (s : State) : ∃ t, step s = .next t := by
  obtain ⟨_, e⟩ | ⟨_, _, e⟩ | ⟨_, _, _, e⟩ | ⟨_, _, _, e⟩ := step_cases s <;> rw [e]
  · exact ⟨_, rfl⟩
  · exact ⟨_, rfl⟩
  · exact ⟨_, rfl⟩
  · obtain ⟨i, _, e⟩ | ⟨g, _, e⟩ := runWord_cases s.fetchedWord s <;> rw [e]
    · exact exec_total i s
    · exact ⟨_, rfl⟩

theorem applyCall_total (c : Call) (s : State) : ∃ t, applyCall c s = .next t := by
  cases c with
  | step => exact step_total s
  | tick | deliverKey => exact ⟨_, rfl⟩

/-- Settles O10: `step_total`, by the cases of a step and of the meanings. -/
theorem stepAlwaysAnswersANextState : Obligations.StepAlwaysAnswersANextState := step_total

/-! ### Frames -/

/-- Settles O46: each meaning's answer, by the lemma of the operation it ends in, with the fields it writes. -/
theorem frameOfTheSpecialState : Obligations.FrameOfTheSpecialState := by
  intro i s t h
  cases i
  case ret => obtain ⟨_, rfl⟩ | ⟨_, _, _, rfl⟩ := execRet_cases h <;> simp [Instr.op]
  case bcd => obtain ⟨_, rfl⟩ | ⟨_, rfl⟩ := execBcd_cases h <;> simp [Instr.op]
  case stm => obtain ⟨_, rfl⟩ | ⟨_, rfl⟩ := execStm_cases h <;> simp [Instr.op]
  case ldm => obtain ⟨_, rfl⟩ | ⟨_, rfl⟩ := execLdm_cases h <;> simp [Instr.op]
  case se | sne | ser | sner =>
    obtain rfl := (skipWhen_eq_next _ _ _).mp h
    simp
  case skp | sknp =>
    obtain rfl := (keyQueryWith_eq_next _ _ _ _ _).mp h
    simp [Instr.op]
  -- The other meanings complete or emit without a branch (`CALL` has no stack limit).
  all_goals
    cases h
    simp [Instr.op]

theorem exec_keeps_stack {i : Instr} {s t : State} (h : exec i s = .next t) (hop : i.op ∉ [Op.call, .ret]) :
    t.stack = s.stack := by
  obtain ⟨-, hstack, -⟩ := frameOfTheSpecialState i s t h
  exact hstack hop

theorem exec_keeps_halted {i : Instr} {s t : State} (h : exec i s = .next t) (hop : i.op ≠ .wkey) :
    t.halted = s.halted := by
  obtain ⟨-, -, -, -, hhalted, -⟩ := frameOfTheSpecialState i s t h
  exact hhalted hop

theorem exec_keeps_fault {i : Instr} {s t : State} (h : exec i s = .next t)
    (hop : i.op ∉ [Op.ret, .call, .bcd, .stm, .ldm]) : t.fault = s.fault := by
  obtain ⟨-, -, -, -, -, -, -, hfault, -⟩ := frameOfTheSpecialState i s t h
  exact hfault hop

/-- Settles O44: the registers after the one write, the flagged write or the load of an instruction that writes any. -/
theorem frameOfTheRegisters : Obligations.FrameOfTheRegisters := by
  intro i s t r h hr
  cases i
  case ret => obtain ⟨_, rfl⟩ | ⟨_, _, _, rfl⟩ := execRet_cases h <;> rfl
  case bcd => obtain ⟨_, rfl⟩ | ⟨_, rfl⟩ := execBcd_cases h <;> rfl
  case stm => obtain ⟨_, rfl⟩ | ⟨_, rfl⟩ := execStm_cases h <;> rfl
  case ldm x =>
    have hx : ¬ r ≤ x := by simpa [writtenRegs] using hr
    obtain ⟨_, rfl⟩ | ⟨_, rfl⟩ := execLdm_cases h
    · rw [State.getV_loadedRegs s _ x r rfl, if_neg hx]
    · rfl
  case se | sne | ser | sner =>
    obtain rfl := (skipWhen_eq_next _ _ _).mp h
    rfl
  case skp | sknp =>
    obtain rfl := (keyQueryWith_eq_next _ _ _ _ _).mp h
    rfl
  case ld | add | rnd | gdt | mov | or | and | xor =>
    have hx := List.mem_singleton.not.mp hr
    obtain rfl := (writeReg_eq_next _ _ _ t).mp h
    exact (State.getV_setV ..).trans (if_neg hx)
  case addr | sub | shr | subn | shl =>
    obtain ⟨h15, hx⟩ : r ≠ 15 ∧ r ≠ _ := by simpa [writtenRegs] using hr
    obtain rfl := (writeFlagged_eq_next _ _ _ _ t).mp h
    exact (State.getV_setFlagged ..).trans ((if_neg hx).trans (if_neg h15))
  case addi =>
    have h15 := List.mem_singleton.not.mp hr
    obtain rfl := (writeIndexFlagged_eq_next _ _ t).mp h
    exact (State.getV_setV ..).trans (if_neg h15)
  -- The other meanings complete or emit without a branch and write no register.
  all_goals
    cases h
    rfl

theorem storedByte_eq_none_of_not_stores {i : Instr} {s : State} {a : Nat} (h : ¬ Stores i s a) :
    storedByte i s a = none := by
  cases i
  case bcd =>
    simp only [Stores] at h
    rw [storedByte, if_neg (by omega), if_neg (by omega), if_neg (by omega)]
  case stm => exact if_neg h
  all_goals rfl

theorem byteAfter_of_not_stores {i : Instr} {s : State} {a : Nat} (h : ¬ Stores i s a) :
    byteAfter i s a = Memory.read s.mem a := by
  rw [byteAfter, storedByte_eq_none_of_not_stores h, Option.getD_none]

/-- Settles O45: `BCD` and `STM` store their run of bytes or fault, every other instruction keeps the whole memory. -/
theorem frameOfTheMemory : Obligations.FrameOfTheMemory := by
  intro i s t h a ha
  by_cases hop : i.op ∈ [Op.bcd, .stm]
  · cases i <;> simp [Instr.op] at hop
    case bcd x =>
      obtain ⟨hfit, rfl⟩ | ⟨_, rfl⟩ := execBcd_cases h
      · rw [← byteAfter_of_not_stores ha]
        exact read_writeRun_eq_byteAfter (by rw [bcdDigits_length]; omega) a (storedByte_bcd x s a)
      · rfl
    case stm x =>
      obtain ⟨hfit, rfl⟩ | ⟨_, rfl⟩ := execStm_cases h
      · rw [← byteAfter_of_not_stores ha]
        exact read_writeRun_eq_byteAfter (by rw [State.regsUpTo_length]; omega) a (storedByte_stm x s a)
      · rfl
  · rw [exec_keeps_mem hop h]

/-! ### pc after a step (R29) -/

/-- The target of `JPV` as a number (R119). -/
theorem zext16_add_addrOperand (v : Byte) (nnn : Addr12) :
    zext16 v + addrOperand nnn = BitVec.ofNat 16 (v.toNat + nnn.toNat) := by
  rw [addrOperand_eq_ofNat, zext16, ← BitVec.ofNat_toNat, BitVec.ofNat_add]

/-- A key query on either answer, the two advances of R101 added up. -/
theorem keyQueryWith_eq (p : Bool) (x : RegIdx) (sel : KeySelector) (s : State) :
    keyQueryWith p x sel s = .next { s with
      pc := if answerSatisfies sel p then s.pc + 4 else s.pc + 2
      draws := s.draws + 1, ret := .ok (.keyConditional x sel) } :=
  (keyQueryWith_eq_next p x sel s _).mpr (by simp [BitVec.add_assoc])

/-- `SKNP` skips where the host's answer is no (decision D25). -/
theorem ite_ifNotPressed (p : Bool) (a b : Word) :
    (if answerSatisfies .ifNotPressed p then a else b) = if p then b else a := by
  cases p <;> rfl

/-- The row of R29's table for each instruction, when it raises nothing. -/
theorem exec_pc {w : Word} {i : Instr} {s t : State} (hdec : decode w = .instr i) (h : exec i s = .next t)
    (hf : t.fault = none) : t.pc = pcAfter w s := by
  simp only [pcAfter, hdec]
  cases i
  case ret =>
    obtain ⟨_, rfl⟩ | ⟨a, rest, hs, rfl⟩ := execRet_cases h
    · cases hf
    · simp [hs]
  case bcd =>
    obtain ⟨_, rfl⟩ | ⟨_, rfl⟩ := execBcd_cases h
    · rfl
    · cases hf
  case stm =>
    obtain ⟨_, rfl⟩ | ⟨_, rfl⟩ := execStm_cases h
    · rfl
    · cases hf
  case ldm =>
    obtain ⟨_, rfl⟩ | ⟨_, rfl⟩ := execLdm_cases h
    · rfl
    · cases hf
  case jp | call =>
    cases h
    exact addrOperand_eq_ofNat _
  case jpv =>
    cases h
    exact zext16_add_addrOperand _ _
  case se | ser =>
    cases (skipWhen_decide _ s).symm.trans h
    rfl
  case sne | sner =>
    cases (skipWhen_decide _ s).symm.trans h
    exact ite_not ..
  case skp =>
    cases (keyQueryWith_eq ..).symm.trans h
    rfl
  case sknp =>
    cases (keyQueryWith_eq ..).symm.trans h
    exact ite_ifNotPressed ..
  -- The other meanings go on to the next instruction.
  all_goals
    cases h
    rfl

/-- A step of a running core: a fetch fault, an instruction, or the no-operation of an undefined word. -/
theorem step_running_cases {s t : State} (hf : s.fault = none) (hh : s.halted = false) (h : step s = .next t) :
    (4094 < s.pc.toNat ∧
      t = { s with fault := some (.fetchOutOfBounds s.pc), ret := .fault (.fetchOutOfBounds s.pc) }) ∨
    (s.pc.toNat ≤ 4094 ∧ ∃ i, decode s.fetchedWord = .instr i ∧ exec i s = .next t) ∨
    (s.pc.toNat ≤ 4094 ∧ ∃ g, decode s.fetchedWord = .undefined g ∧
      t = { s with pc := s.pc + 2, ret := .ok .none }) := by
  obtain ⟨hf', _⟩ | ⟨_, hh', _⟩ | ⟨_, _, hpc, e⟩ | ⟨_, _, hpc, e⟩ := step_cases s
  · exact absurd hf hf'
  · simp [hh] at hh'
  · exact .inl ⟨hpc, (raise_eq_next _ s t).mp (e ▸ h)⟩
  · obtain ⟨i, hi, e'⟩ | ⟨g, hg, e'⟩ := runWord_cases s.fetchedWord s <;> rw [e, e'] at h
    · exact .inr (.inl ⟨hpc, i, hi, h⟩)
    · exact .inr (.inr ⟨hpc, g, hg, (execNop_eq_next s t).mp h⟩)

/-- A step behind a closed gate only returns `Ok(None)` (R104, R105). -/
theorem step_gated {s : State} (hg : s.fault ≠ none ∨ s.halted = true) :
    step s = .next { s with ret := .ok .none } := by
  obtain hf | hh := hg
  · obtain ⟨_, e⟩ | ⟨hf', _⟩ | ⟨hf', _⟩ | ⟨hf', _⟩ := step_cases s
    · exact e
    all_goals exact absurd hf' hf
  · exact haltedStepChangesNothing s hh

/-- Settles O12: behind a gate and on a fault pc stays; else the step is `exec_pc` or a no-operation. -/
theorem pcAfterEveryStep : Obligations.PcAfterEveryStep := by
  intro s t h
  refine ⟨fun hg => ?gated, fun hf hh htf => ?raised, fun hf hh htf => ?ran⟩
  case gated =>
    cases (step_gated hg).symm.trans h
    rfl
  case raised =>
    obtain ⟨_, rfl⟩ | ⟨_, i, _, hi⟩ | ⟨_, _, _, rfl⟩ := step_running_cases hf hh h
    · rfl
    · obtain ⟨-, hkept⟩ | ⟨f, rfl⟩ := exec_returns_or_raises hi
      · exact absurd (hkept.trans hf) htf
      · rfl
    · exact absurd hf htf
  case ran =>
    obtain ⟨_, rfl⟩ | ⟨_, i, hdec, hi⟩ | ⟨_, g, hdec, rfl⟩ := step_running_cases hf hh h
    · cases htf
    · exact exec_pc hdec hi htf
    · simp only [pcAfter, hdec]

/-! ### The fault latch (R211) -/

/-- The latch after an instruction: the five that can raise, each at its condition, and the frame for the others. -/
theorem exec_fault_iff {i : Instr} {s t : State} (hpc : s.pc.toNat ≤ 4094) (hdec : decode s.fetchedWord = .instr i)
    (hs : s.fault = none) (h : exec i s = .next t) (f : Fault) : t.fault = some f ↔ RaisedWhen s f := by
  rw [RaisedWhen, if_neg (by omega)]
  simp only [hdec]
  cases i
  case ret =>
    obtain ⟨he, rfl⟩ | ⟨a, rest, he, rfl⟩ := execRet_cases h <;> simp [he, hs, eq_comm]
  case call =>
    cases h
    simp [hs, Config.stackLimit]
  case bcd =>
    obtain ⟨hfit, rfl⟩ | ⟨hfit, rfl⟩ := execBcd_cases h
    · exact iff_of_false (by simp [hs]) fun ⟨hbeyond, _⟩ => by omega
    · simp [hfit, eq_comm]
  case stm =>
    obtain ⟨hfit, rfl⟩ | ⟨hfit, rfl⟩ := execStm_cases h
    · exact iff_of_false (by simp [hs]) fun ⟨hbeyond, _⟩ => by omega
    · simp [hfit, eq_comm]
  case ldm =>
    obtain ⟨hfit, rfl⟩ | ⟨hfit, rfl⟩ := execLdm_cases h
    · exact iff_of_false (by simp [hs]) fun ⟨hbeyond, _⟩ => by omega
    · simp [hfit, eq_comm]
  all_goals
    rw [exec_keeps_fault h (by simp [Instr.op]), hs]
    simp

/-- Settles O13: the fetch fault, `exec_fault_iff`, and a no-operation raises nothing; and a fault discards all else. -/
theorem faultsAreExactlyTheListedOnes : Obligations.FaultsAreExactlyTheListedOnes := by
  intro s t hf hh h
  obtain ⟨hpc, rfl⟩ | ⟨hpc, i, hdec, hi⟩ | ⟨hpc, g, hdec, rfl⟩ := step_running_cases hf hh h
  · refine ⟨fun f => ?_, fun f htf => ?_⟩
    · rw [RaisedWhen, if_pos hpc]
      simp [eq_comm]
    · cases htf
      rfl
  · refine ⟨exec_fault_iff hpc hdec hf hi, fun f htf => ?_⟩
    obtain ⟨-, hkept⟩ | ⟨f', rfl⟩ := exec_returns_or_raises hi
    · cases htf.symm.trans (hkept.trans hf)
    · cases htf
      rfl
  · refine ⟨fun f => ?_, fun f htf => ?_⟩
    · rw [RaisedWhen, if_neg (by omega)]
      simp [hdec, hf]
    · cases hf.symm.trans htf

/-! ### A faulted core (R215) -/

/-- Every call of a faulted core leaves it, a step but for what it returns. -/
theorem applyCall_faulted {c : Call} {s : State} (hf : s.fault ≠ none) :
    ∃ r, applyCall c s = .next { s with ret := r } ∧ (r = s.ret ∨ r = .ok .none) := by
  have hsome := Option.isSome_iff_ne_none.mpr hf
  cases c with
  | step => exact ⟨_, step_gated (.inl hf), .inr rfl⟩
  | tick => exact ⟨s.ret, by simp [applyCall, tick, hsome], .inl rfl⟩
  | deliverKey => exact ⟨s.ret, by simp [applyCall, deliverKey, hsome], .inl rfl⟩

/-- Settles O14, by induction on the calls. -/
theorem faultedCoreIsInert : Obligations.FaultedCoreIsInert := by
  intro s calls hf
  induction calls generalizing s with
  | nil => exact ⟨s.ret, rfl, .inl rfl⟩
  | cons c cs ih =>
    obtain ⟨r, hc, hr⟩ := applyCall_faulted (c := c) hf
    obtain ⟨r', hcs, hr'⟩ := ih { s with ret := r } hf
    refine ⟨r', by rw [runCalls_cons hc, hcs], ?_⟩
    obtain rfl | rfl := hr'
    · exact hr
    · exact .inr rfl

/-! ### The invariant (R47) -/

/-- With no stack limit the depth clause says nothing (decision D18). -/
theorem State.inv_iff (s : State) :
    s.Inv ↔ Memory.wf s.mem ∧ ∀ e ∈ s.stack, 2 ≤ e.toNat ∧ e.toNat ≤ 4096 := by
  simp [State.Inv, Config.stackLimit]

theorem exec_keeps_wf {i : Instr} {s t : State} (hs : Memory.wf s.mem) (h : exec i s = .next t) :
    Memory.wf t.mem := by
  by_cases hop : i.op ∈ [Op.bcd, .stm]
  · cases i <;> simp [Instr.op] at hop
    case bcd => obtain ⟨_, rfl⟩ | ⟨_, rfl⟩ := execBcd_cases h; exacts [Memory.wf_writeRun hs _ _, hs]
    case stm => obtain ⟨_, rfl⟩ | ⟨_, rfl⟩ := execStm_cases h; exacts [Memory.wf_writeRun hs _ _, hs]
  · rwa [exec_keeps_mem hop h]

/-- `CALL` pushes an address past one that could be fetched, `RET` pops, the others leave the stack. -/
theorem exec_keeps_return_addresses {i : Instr} {s t : State} (hpc : s.pc.toNat ≤ 4094)
    (hs : ∀ e ∈ s.stack, 2 ≤ e.toNat ∧ e.toNat ≤ 4096) (h : exec i s = .next t) :
    ∀ e ∈ t.stack, 2 ≤ e.toNat ∧ e.toNat ≤ 4096 := by
  by_cases hop : i.op ∈ [Op.call, .ret]
  · cases i <;> simp [Instr.op] at hop
    case call nnn =>
      cases h
      have hpush : 2 ≤ (s.pc + 2).toNat ∧ (s.pc + 2).toNat ≤ 4096 := by bv_omega
      exact List.forall_mem_cons.mpr ⟨hpush, hs⟩
    case ret =>
      obtain ⟨_, rfl⟩ | ⟨a, rest, hstack, rfl⟩ := execRet_cases h
      · exact hs
      · exact (List.forall_mem_cons.mp (hstack ▸ hs)).2
  · rwa [exec_keeps_stack h hop]

theorem step_keeps_inv {s t : State} (hs : s.Inv) (h : step s = .next t) : t.Inv := by
  by_cases hg : s.fault ≠ none ∨ s.halted = true
  · cases (step_gated hg).symm.trans h
    exact hs
  · obtain ⟨hf, hh⟩ : s.fault = none ∧ s.halted = false := by simpa using hg
    obtain ⟨_, rfl⟩ | ⟨hpc, i, _, hi⟩ | ⟨_, _, _, rfl⟩ := step_running_cases hf hh h
    · exact hs
    · obtain ⟨hmem, hstack⟩ := s.inv_iff.mp hs
      exact t.inv_iff.mpr ⟨exec_keeps_wf hmem hi, exec_keeps_return_addresses hpc hstack hi⟩
    · exact hs

theorem applyCall_keeps_inv {c : Call} {s t : State} (hs : s.Inv) (h : applyCall c s = .next t) : t.Inv := by
  cases c with
  | step => exact step_keeps_inv hs h
  | tick =>
    injection h with h
    rw [← h, tick_eq]
    exact hs
  | deliverKey x k =>
    injection h with h
    rw [← h, deliverKey_eq]
    exact hs

/-- Settles O52: memory by `exec_keeps_wf`, the stack by `exec_keeps_return_addresses`. -/
theorem stepKeepsTheInvariant : Obligations.StepKeepsTheInvariant :=
  ⟨fun _ _ => step_keeps_inv, fun _ _ _ => applyCall_keeps_inv⟩

theorem State.loaded_inv (sq iq : Bool) (p : List Byte) : (State.loaded sq iq p).Inv :=
  (State.inv_iff _).mpr ⟨Memory.wf_writeRun State.reset_mem_wf _ _, by simp [State.loaded, State.reset]⟩

/-- Settles O53: reset is a loaded state with nothing loaded. -/
theorem resetMeetsTheInvariant : Obligations.ResetMeetsTheInvariant :=
  State.loaded_inv false false []

theorem eq_loaded_of_construct {sq iq : Bool} {p : List Byte} {s : State} (h : construct sq iq p = some s) :
    s = State.loaded sq iq p := by
  unfold construct at h
  split at h <;> cases h
  rfl

/-- Settles O54: every call keeps the invariant and the two flags, so every run of calls does. -/
theorem everyRunKeepsTheInvariant : Obligations.EveryRunKeepsTheInvariant := by
  intro sq iq p s hs calls
  obtain rfl := eq_loaded_of_construct hs
  refine runCalls_keeps (P := fun t => t.Inv ∧ t.shiftQuirk = sq ∧ t.indexQuirk = iq)
    (fun c u t ⟨hinv, hsq, hiq⟩ h => ?_) applyCall_total ⟨State.loaded_inv sq iq p, rfl, rfl⟩ calls
  obtain ⟨hsq', hiq'⟩ := applyCall_keeps_quirks h
  exact ⟨applyCall_keeps_inv hinv h, hsq'.trans hsq, hiq'.trans hiq⟩

/-- Settles O50: the bound of `construct` is the negated one. -/
theorem constructRefusesLongPrograms : Obligations.ConstructRefusesLongPrograms := by
  intro sq iq p
  by_cases h : p.length ≤ 3584
  · simp [construct_eq_some h, h]
  · exact iff_of_true (if_neg h) (not_le.mp h)

/-- Settles O51, by computing the one state it is about. -/
theorem resetIsConstructWithoutAProgram : Obligations.ResetIsConstructWithoutAProgram := by
  unfold Obligations.ResetIsConstructWithoutAProgram
  decide

end Sys2Proof.Machine

/-!
The codec (`46_codec.md`). A text assembles exactly when each of its non-blank lines does, and its bytes are those of
the lines' words in order (`assemble_eq_ok_iff`). So a listing is a matter of its lines: that joined lines are split
again, that a printed line is read back as its word (`assembleLine_printLine`), and that the word of a line that
assembles prints as the line's normal form (`wordLine_of_assembleLine`).
-/

namespace Sys2Proof.Machine

open Sys2Proof.Claims

/-! ### Blanks at the ends of a text -/

/-- `trim` by the library's two one-sided trims. -/
theorem trim_eq (t : List Char) : trim t = (t.dropWhile isBlank).rdropWhile isBlank := rfl

theorem isBlank_iff {c : Char} : isBlank c = true ↔ c = ' ' ∨ c = '\t' := by
  simp [isBlank]

theorem trim_append_of_blanks {b : List Char} (hb : ∀ c ∈ b, isBlank c = true) (t : List Char) :
    trim (b ++ t) = trim t := by
  rw [trim_eq, List.dropWhile_append_of_pos hb, trim_eq]

/-- What follows a word without blanks is trimmed at its end, the word stays. -/
theorem rdropWhile_append_of_not_blank {m : List Char} (hm : ∀ c ∈ m, isBlank c = false) (r : List Char) :
    (m ++ r).rdropWhile isBlank = m ++ r.rdropWhile isBlank := by
  induction r using List.reverseRecOn with
  | nil =>
    rw [List.append_nil, List.rdropWhile_nil, List.append_nil, List.rdropWhile_eq_self_iff]
    exact fun h => by simp [hm _ (List.getLast_mem h)]
  | append_singleton r c ih =>
    rw [← List.append_assoc]
    by_cases hc : isBlank c = true
    · rw [List.rdropWhile_concat_pos _ _ _ hc, List.rdropWhile_concat_pos _ _ _ hc, ih]
    · rw [List.rdropWhile_concat_neg _ _ _ hc, List.rdropWhile_concat_neg _ _ _ hc, List.append_assoc]

theorem dropWhile_append_of_not_blank {m : List Char} (hne : m ≠ []) (hm : ∀ c ∈ m, isBlank c = false)
    (r : List Char) : (m ++ r).dropWhile isBlank = m ++ r := by
  obtain ⟨c, cs, rfl⟩ := List.exists_cons_of_ne_nil hne
  exact List.dropWhile_cons_of_neg (by simp [hm c])

/-- A text that begins with a word without blanks is trimmed at its other end alone. -/
theorem trim_word_append {m : List Char} (hne : m ≠ []) (hm : ∀ c ∈ m, isBlank c = false) (r : List Char) :
    trim (m ++ r) = m ++ r.rdropWhile isBlank := by
  rw [trim_eq, dropWhile_append_of_not_blank hne hm, rdropWhile_append_of_not_blank hm]

theorem trim_of_not_blank {m : List Char} (hm : ∀ c ∈ m, isBlank c = false) : trim m = m := by
  obtain rfl | hne := eq_or_ne m []
  · rfl
  · simpa using trim_word_append hne hm []

/-! ### Lines of a text -/

/-- `splitAt` is the library's split. -/
theorem splitAt_eq_splitOn (c : Char) (t : List Char) : splitAt c t = t.splitOn c := by
  induction t with
  | nil => rfl
  | cons d ds ih =>
    rw [List.splitOn_cons_eq_if_modifyHead, splitAt, ih]
    obtain ⟨p, ps, hsplit⟩ := List.exists_cons_of_ne_nil (List.splitOn_ne_nil c ds)
    simp [hsplit]

/-- Lines that were joined by a separator none of them holds are split again. -/
theorem splitAt_intercalate {c : Char} {ls : List (List Char)} (hc : ∀ l ∈ ls, c ∉ l) (hne : ls ≠ []) :
    splitAt c (List.intercalate [c] ls) = ls := by
  rw [splitAt_eq_splitOn, List.splitOn_intercalate c hc hne]

theorem splitAt_of_not_mem {c : Char} {t : List Char} (hc : c ∉ t) : splitAt c t = [t] := by
  simpa using splitAt_intercalate (ls := [t]) (by simpa using hc) (by simp)

theorem dropCr_concat_cr (t : List Char) : dropCr (t ++ ['\r']) = t := by
  simp [dropCr]

theorem dropCr_of_getLast?_ne {t : List Char} (h : t.getLast? ≠ some '\r') : dropCr t = t := by
  unfold dropCr
  split
  · next hr =>
    rw [List.getLast?_eq_head?_reverse, hr] at h
    exact absurd rfl h
  · rfl

/-- The carriage return of a line is that of its last part. -/
theorem dropCr_append {r : List Char} (hr : r ≠ []) (t : List Char) : dropCr (t ++ r) = t ++ dropCr r := by
  obtain ⟨r, c, rfl⟩ := (List.eq_nil_or_concat' r).resolve_left hr
  rw [← List.append_assoc]
  by_cases hc : c = '\r'
  · rw [hc, dropCr_concat_cr, dropCr_concat_cr]
  · rw [dropCr_of_getLast?_ne (by simpa), dropCr_of_getLast?_ne (by simpa), List.append_assoc]

/-! ### The lines of a text that assemble -/

theorem numberedLines_snd (t : List Char) :
    (numberedLines t).map Prod.snd = (splitAt '\n' t).map fun l => trim (dropCr l) := by
  rw [numberedLines, List.map_map]
  exact List.zipIdx_map_fst ..

theorem assembleLines_cons_eq_ok {n : Nat} {line : List Char} (hne : line ≠ []) {rest : List (Nat × List Char)}
    {bs : List Byte} :
    assembleLines ((n, line) :: rest) = .ok bs ↔
      ∃ w bs', assembleLine line = .ok w ∧ assembleLines rest = .ok bs' ∧ bs = bytesOfWord w ++ bs' := by
  obtain ⟨c, cs, rfl⟩ := List.exists_cons_of_ne_nil hne
  simp only [assembleLines]
  cases assembleLine (c :: cs) <;> cases assembleLines rest <;> simp [eq_comm]

/-- Numbered lines assemble when each non-blank one does, to the bytes of their words (R187, R194). -/
theorem assembleLines_eq_ok_iff (ls : List (Nat × List Char)) (bs : List Byte) :
    assembleLines ls = .ok bs ↔
      ∃ ws, List.Forall₂ (fun l w => assembleLine l = .ok w) ((ls.map Prod.snd).filter fun l => !l.isEmpty) ws ∧
        bs = ws.flatMap bytesOfWord := by
  induction ls generalizing bs with
  | nil => simp [assembleLines, eq_comm]
  | cons p rest ih =>
    obtain ⟨n, line⟩ := p
    obtain rfl | hne := eq_or_ne line []
    · exact ih bs
    · rw [assembleLines_cons_eq_ok hne, List.map_cons, List.filter_cons_of_pos (by simpa using hne)]
      simp only [List.forall₂_cons_left_iff, ih]
      constructor
      · rintro ⟨w, _, hw, ⟨ws, hws, rfl⟩, rfl⟩
        exact ⟨w :: ws, ⟨w, ws, hw, hws, rfl⟩, rfl⟩
      · rintro ⟨_, ⟨w, ws, hw, hws, rfl⟩, rfl⟩
        exact ⟨w, _, hw, ⟨ws, hws, rfl⟩, rfl⟩

/-- A text assembles when each of its source lines does, to the bytes of their words. -/
theorem assemble_eq_ok_iff {text : String} {bs : List Byte} :
    assemble text = .ok bs ↔
      ∃ ws, List.Forall₂ (fun l w => assembleLine l = .ok w) (sourceLines text) ws ∧ bs = ws.flatMap bytesOfWord :=
  assembleLines_eq_ok_iff _ _

/-- A text without a line feed is one line, numbered 1. -/
theorem numberedLines_single {t : List Char} (hnl : '\n' ∉ t) : numberedLines t = [(1, trim (dropCr t))] := by
  rw [numberedLines, splitAt_of_not_mem hnl]
  rfl

section
variable {t line : List Char} (hnl : '\n' ∉ t) (hline : trim (dropCr t) = line) (hne : line ≠ [])
include hnl hline hne

theorem assemble_of_line_ok {w : Word} (h : assembleLine line = .ok w) :
    assemble (String.ofList t) = .ok (bytesOfWord w) := by
  rw [assemble, String.toList_ofList, numberedLines_single hnl, hline, assembleLines_cons_eq_ok hne]
  exact ⟨w, [], h, rfl, (List.append_nil _).symm⟩

theorem assemble_of_line_error {k : FailureKind} (h : assembleLine line = .error k) :
    assemble (String.ofList t) = .error [⟨1, String.ofList (lineMnemonic line), k⟩] := by
  obtain ⟨c, cs, rfl⟩ := List.exists_cons_of_ne_nil hne
  rw [assemble, String.toList_ofList, numberedLines_single hnl, hline]
  simp only [assembleLines, h]

end

/-! ### The mnemonic and the operand text of a line (R188) -/

section
variable {m r : List Char} (hm : ∀ c ∈ m, isBlank c = false) (hr : ∀ c ∈ r.head?, isBlank c = true)
include hm hr

theorem lineMnemonic_append : lineMnemonic (m ++ r) = m := by
  rw [lineMnemonic, List.takeWhile_append_of_pos (by simpa using hm)]
  cases r with
  | nil => simp
  | cons c r => rw [List.takeWhile_cons_of_neg (by simp [hr c rfl]), List.append_nil]

theorem lineOperandText_append : lineOperandText (m ++ r) = trim r := by
  rw [lineOperandText, List.dropWhile_append_of_pos (by simpa using hm)]
  cases r with
  | nil => rfl
  | cons c r => rw [List.dropWhile_cons_of_neg (by simp [hr c rfl])]

end

/-! ### The characters of a printed line

A mnemonic and printed operands hold characters above the space, so a printed line holds none below it.
-/

theorem isBlank_eq_false_of_lt {c : Char} (h : ' ' < c) : isBlank c = false := by
  rw [← Bool.not_eq_true, isBlank_iff]
  rintro (rfl | rfl) <;> exact absurd h (by decide)

theorem not_mem_of_printable {t : List Char} (ht : ∀ c ∈ t, ' ' ≤ c) {d : Char} (hd : d < ' ') : d ∉ t :=
  fun h => absurd (ht d h) (not_le.mpr hd)

theorem lt_of_mem_mnemonic (o : Op) : ∀ c ∈ o.mnemonic.toList, ' ' < c := by
  cases o <;> simp [Op.mnemonic]

theorem mnemonic_not_blank (o : Op) : ∀ c ∈ o.mnemonic.toList, isBlank c = false :=
  fun c hc => isBlank_eq_false_of_lt (lt_of_mem_mnemonic o c hc)

theorem mnemonic_ne_nil (o : Op) : o.mnemonic.toList ≠ [] := by
  cases o <;> decide +kernel

theorem ofMnemonic?_eq_some_iff {m : String} {o : Op} : Op.ofMnemonic? m = some o ↔ m = o.mnemonic := by
  constructor
  · intro h
    have hfound := List.find?_some (p := fun p : Op => p.mnemonic == m) h
    exact (beq_iff_eq.mp hfound).symm
  · rintro rfl
    exact Laws.Canonical.ofMnemonic_mnemonic o

/-! ### Numbers in decimal -/

theorem digitValue?_digitChar {d : Nat} (hd : d < 10) : digitValue? (digitChar d) = some d := by
  revert d
  decide

/-- The printed digits of a number are read back, before the digits that follow them. -/
theorem readDigits_decimalWith {fuel n : Nat} (h : n < fuel) (ds : List Char) :
    readDigits 0 (decimalWith fuel n ds) = readDigits n ds := by
  induction fuel generalizing n ds with
  | zero => omega
  | succ fuel ih =>
    rw [decimalWith]
    split
    · next hn => simp [readDigits, digitValue?_digitChar hn]
    · rw [ih (by omega)]
      simp [readDigits, digitValue?_digitChar (Nat.mod_lt n (by decide)), Nat.div_add_mod']

theorem readDigits_decimal (n : Nat) : readDigits 0 (decimal n) = some n :=
  readDigits_decimalWith (Nat.lt_succ_self n) []

/-- Reading succeeds exactly on digits. -/
theorem readDigits_isSome_iff (acc : Nat) (t : List Char) :
    (readDigits acc t).isSome ↔ ∀ c ∈ t, '0' ≤ c ∧ c ≤ '9' := by
  induction t generalizing acc with
  | nil => simp [readDigits]
  | cons c t ih =>
    rw [readDigits, digitValue?]
    by_cases hc : '0' ≤ c ∧ c ≤ '9'
    · simp [hc, ih]
    · simp [hc]

theorem isDigit_of_mem_decimal {n : Nat} : ∀ c ∈ decimal n, '0' ≤ c ∧ c ≤ '9' :=
  (readDigits_isSome_iff 0 _).mp (by rw [readDigits_decimal]; rfl)

theorem decimal_ne_nil (n : Nat) : decimal n ≠ [] := by
  intro h
  have hread := readDigits_decimal n
  rw [h] at hread
  cases hread
  cases h

theorem lt_of_mem_decimal {n : Nat} : ∀ c ∈ decimal n, ' ' < c :=
  fun c hc => lt_of_lt_of_le (by decide) (isDigit_of_mem_decimal c hc).1

theorem comma_not_mem_decimal (n : Nat) : ',' ∉ decimal n :=
  fun h => absurd (isDigit_of_mem_decimal ',' h).1 (by decide)

/-! ### Operands (R189) -/

theorem parseOperand_of_ne_nil {p : List Char} (h : trim p ≠ []) : parseOperand p = readDigits 0 (trim p) := by
  rw [parseOperand]
  split
  · contradiction
  · rfl

theorem parseOperand_decimal (n : Nat) : parseOperand (decimal n) = some n := by
  have htrim : trim (decimal n) = decimal n :=
    trim_of_not_blank fun c hc => isBlank_eq_false_of_lt (lt_of_mem_decimal c hc)
  rw [parseOperand_of_ne_nil (by rw [htrim]; exact decimal_ne_nil n), htrim, readDigits_decimal]

/-- A piece parses exactly when it is a decimal number (R189). -/
theorem parseOperand_isSome_iff (p : List Char) : (parseOperand p).isSome ↔ IsDecimal (trim p) := by
  by_cases h : trim p = []
  · simp [parseOperand, h, IsDecimal]
  · rw [parseOperand_of_ne_nil h, readDigits_isSome_iff, IsDecimal, and_iff_right h]

theorem parsePieces_eq_some_iff {ps : List (List Char)} {vs : List Nat} :
    parsePieces ps = some vs ↔ List.Forall₂ (fun p v => parseOperand p = some v) ps vs := by
  induction ps generalizing vs with
  | nil => simp [parsePieces, eq_comm]
  | cons p ps ih =>
    rw [parsePieces, List.forall₂_cons_left_iff]
    simp only [← ih]
    cases parseOperand p <;> cases parsePieces ps <;> simp [eq_comm]

/-- Every piece of an operand text that parses is a decimal number. -/
theorem isDecimal_of_parsePieces {ps : List (List Char)} {vs : List Nat} (h : parsePieces ps = some vs) :
    ∀ p ∈ ps, IsDecimal (trim p) := by
  have hboth : List.Forall₂ (fun p v => IsDecimal (trim p) ∧ parseOperand p = some v) ps vs :=
    (parsePieces_eq_some_iff.mp h).imp fun p v hp => ⟨(parseOperand_isSome_iff p).mp (by rw [hp]; rfl), hp⟩
  exact ((List.forall₂_and_left _ _).mp hboth).1

theorem parseOperands_of_ne_nil {t : List Char} (h : t ≠ []) : parseOperands t = parsePieces (splitAt ',' t) := by
  obtain ⟨c, cs, rfl⟩ := List.exists_cons_of_ne_nil h
  rfl

/-! ### Printed operands are read back -/

theorem lt_of_mem_printOperands {vs : List Nat} : ∀ c ∈ printOperands vs, ' ' < c := by
  induction vs with
  | nil => simp [printOperands]
  | cons v vs ih =>
    obtain rfl | hne := eq_or_ne vs []
    · simpa [printOperands] using lt_of_mem_decimal
    · rw [printOperands, List.map_cons, List.intercalate_cons_of_ne_nil (by simpa using hne)]
      intro c hc
      obtain (hc | hc) | hc : (c ∈ decimal v ∨ c ∈ [',']) ∨ c ∈ printOperands vs := by
        simpa [printOperands, or_assoc] using hc
      · exact lt_of_mem_decimal c hc
      · obtain rfl := List.mem_singleton.mp hc
        decide
      · exact ih c hc

theorem splitAt_printOperands {vs : List Nat} (h : vs ≠ []) : splitAt ',' (printOperands vs) = vs.map decimal :=
  splitAt_intercalate (by simpa using fun v _ => comma_not_mem_decimal v) (by simpa using h)

theorem printOperands_ne_nil {vs : List Nat} (h : vs ≠ []) : printOperands vs ≠ [] := by
  intro he
  have hsplit := splitAt_printOperands h
  rw [he] at hsplit
  obtain ⟨v, -, hv⟩ := List.mem_map.mp (show [] ∈ vs.map decimal from hsplit ▸ List.mem_singleton_self [])
  exact decimal_ne_nil v hv

theorem parseOperands_printOperands (vs : List Nat) : parseOperands (printOperands vs) = some vs := by
  obtain rfl | h := eq_or_ne vs []
  · rfl
  · rw [parseOperands_of_ne_nil (printOperands_ne_nil h), splitAt_printOperands h, parsePieces_eq_some_iff,
      List.forall₂_map_left_iff, List.forall₂_same]
    exact fun v _ => parseOperand_decimal v

/-! ### A printed line is read back -/

/-- What a printed line holds after its mnemonic; `printLine_eq` ties it to `printLine`. -/
def printTail (vs : List Nat) : List Char := if vs = [] then [] else ' ' :: printOperands vs

section
variable (o : Op) (vs : List Nat)

theorem printLine_eq : printLine o vs = o.mnemonic.toList ++ printTail vs := by
  cases vs <;> simp [printLine, printTail]

theorem isBlank_of_mem_head?_printTail : ∀ c ∈ (printTail vs).head?, isBlank c = true := by
  unfold printTail
  split
  · simp
  · simp [isBlank]

/-- A printed line ends in an operand or a mnemonic, never in a blank. -/
theorem rdropWhile_printTail : (printTail vs).rdropWhile isBlank = printTail vs := by
  unfold printTail
  split
  · rfl
  · next h =>
    rw [List.rdropWhile_eq_self_iff]
    intro _
    rw [List.getLast_cons (printOperands_ne_nil h), Bool.not_eq_true]
    exact isBlank_eq_false_of_lt (lt_of_mem_printOperands _ (List.getLast_mem _))

theorem trim_printTail : trim (printTail vs) = printOperands vs := by
  unfold printTail
  split
  · next h => rw [h]; rfl
  · exact (trim_append_of_blanks (b := [' ']) (by simp [isBlank]) _).trans
      (trim_of_not_blank fun c hc => isBlank_eq_false_of_lt (lt_of_mem_printOperands c hc))

theorem printLine_printable : ∀ c ∈ printLine o vs, ' ' ≤ c := by
  intro c hc
  rw [printLine_eq, List.mem_append] at hc
  obtain hc | hc := hc
  · exact (lt_of_mem_mnemonic o c hc).le
  · unfold printTail at hc
    split at hc
    · simp at hc
    · obtain rfl | hc := List.mem_cons.mp hc
      · exact le_rfl
      · exact (lt_of_mem_printOperands c hc).le

theorem printLine_ne_nil : printLine o vs ≠ [] := by
  rw [printLine_eq]
  exact List.append_ne_nil_of_left_ne_nil (mnemonic_ne_nil o) _

theorem newline_not_mem_printLine : '\n' ∉ printLine o vs :=
  not_mem_of_printable (printLine_printable o vs) (by decide)

/-- A printed line is a line as it stands: no carriage return, no blank at either end. -/
theorem trim_dropCr_printLine : trim (dropCr (printLine o vs)) = printLine o vs := by
  have hcr : '\r' ∉ printLine o vs := not_mem_of_printable (printLine_printable o vs) (by decide)
  rw [dropCr_of_getLast?_ne fun h => hcr (List.mem_of_getLast? h), printLine_eq,
    trim_word_append (mnemonic_ne_nil o) (mnemonic_not_blank o), rdropWhile_printTail]

theorem lineMnemonic_printLine : lineMnemonic (printLine o vs) = o.mnemonic.toList := by
  rw [printLine_eq, lineMnemonic_append (mnemonic_not_blank o) (isBlank_of_mem_head?_printTail vs)]

theorem lineOperandText_printLine : lineOperandText (printLine o vs) = printOperands vs := by
  rw [printLine_eq, lineOperandText_append (mnemonic_not_blank o) (isBlank_of_mem_head?_printTail vs), trim_printTail]

theorem ofMnemonic?_printLine : Op.ofMnemonic? (String.ofList (lineMnemonic (printLine o vs))) = some o := by
  rw [lineMnemonic_printLine, String.ofList_toList, Laws.Canonical.ofMnemonic_mnemonic]

/-- A printed line reads back as its row and operands, which then only their check can refuse (R193). -/
theorem assembleLine_printLine (h : o.format.check vs = none) : assembleLine (printLine o vs) = .ok (o.word vs) := by
  simp only [assembleLine, ofMnemonic?_printLine, lineOperandText_printLine, parseOperands_printOperands, h]

end

/-! ### The lines of words -/

section
variable {w : Word} {o : Op}

theorem wordLine_of_recognised (h : opOfWord? w = some o) : wordLine w = printLine o (formatFields o.format w) := by
  rw [wordLine, h]

theorem wordLine_word {vs : List Nat} (h : o.format.check vs = none) : wordLine (o.word vs) = printLine o vs := by
  rw [wordLine_of_recognised (opOfWord?_eq_some_iff.mpr (codecMatch_word h)), formatFields_word h]

theorem wordLine_encode (i : Instr) : wordLine (encode i) = instrLine i :=
  wordLine_word i.check_operands

/-- A recognised word is an encoding, and its line is read back as that. -/
theorem assembleLine_wordLine (h : opOfWord? w = some o) : assembleLine (wordLine w) = .ok w := by
  obtain ⟨i, rfl, rfl⟩ := exists_encode_eq (opOfWord?_eq_some_iff.mp h)
  rw [wordLine_encode, instrLine, assembleLine_printLine _ _ i.check_operands]
  rfl

theorem wordLine_eq_nil_or_printLine (w : Word) : wordLine w = [] ∨ ∃ o vs, wordLine w = printLine o vs := by
  cases h : opOfWord? w with
  | none => exact .inl (by rw [wordLine, h])
  | some o => exact .inr ⟨o, _, wordLine_of_recognised h⟩

theorem isEmpty_wordLine (w : Word) : (wordLine w).isEmpty = !(opOfWord? w).isSome := by
  cases h : opOfWord? w with
  | none => simp [wordLine, h]
  | some o => simp [wordLine_of_recognised h, printLine_ne_nil]

theorem newline_not_mem_wordLine (w : Word) : '\n' ∉ wordLine w := by
  obtain h | ⟨o, vs, h⟩ := wordLine_eq_nil_or_printLine w <;> rw [h]
  · exact List.not_mem_nil
  · exact newline_not_mem_printLine o vs

theorem trim_dropCr_wordLine (w : Word) : trim (dropCr (wordLine w)) = wordLine w := by
  obtain h | ⟨o, vs, h⟩ := wordLine_eq_nil_or_printLine w <;> rw [h]
  · rfl
  · exact trim_dropCr_printLine o vs

end

/-! ### Listings -/

theorem wordsOfBytes_flatMap (ws : List Word) : wordsOfBytes (ws.flatMap bytesOfWord) = ws := by
  induction ws with
  | nil => rfl
  | cons w ws ih =>
    rw [List.flatMap_cons, bytesOfWord, List.cons_append, List.cons_append, List.nil_append, wordsOfBytes, ih,
      wordOfBytes_high_low]

theorem disassemble_flatMap (ws : List Word) : disassemble (ws.flatMap bytesOfWord) = joinLines (ws.map wordLine) := by
  rw [disassemble, wordsOfBytes_flatMap, joinLines]

/-- The source lines of a listing are the lines of its recognised words. -/
theorem sourceLines_listing (ws : List Word) :
    sourceLines (joinLines (ws.map wordLine)) = (ws.filter fun w => (opOfWord? w).isSome).map wordLine := by
  obtain rfl | hne := eq_or_ne ws []
  · decide
  · rw [sourceLines, numberedLines_snd, joinLines, String.toList_ofList,
      splitAt_intercalate (by simpa using fun w _ => newline_not_mem_wordLine w) (by simpa using hne), List.map_map,
      List.filter_map]
    simp only [Function.comp_def, trim_dropCr_wordLine, isEmpty_wordLine, Bool.not_not]

/-- Settles O57: each source line of the listing is the line of a recognised word, read back as that word. -/
theorem disassembledWordsAssemble : Obligations.DisassembledWordsAssemble := by
  intro ws
  rw [disassemble_flatMap, assemble_eq_ok_iff, sourceLines_listing]
  refine ⟨_, List.forall₂_map_left_iff.mpr (List.forall₂_same.mpr fun w hw => ?_), rfl⟩
  obtain ⟨o, ho⟩ := Option.isSome_iff_exists.mp (List.mem_filter.mp hw).2
  exact assembleLine_wordLine ho

theorem flatMap_encodeBytes (is : List Instr) : is.flatMap encodeBytes = (is.map encode).flatMap bytesOfWord := by
  rw [List.flatMap_map]
  rfl

/-- Settles O56: O57 for the words of the instructions, all of which are recognised. -/
theorem listingRoundTrips : Obligations.ListingRoundTrips := by
  intro is
  have hprint : disassemble (is.flatMap encodeBytes) = joinLines (is.map instrLine) := by
    rw [flatMap_encodeBytes, disassemble_flatMap, List.map_map]
    simp [Function.comp_def, wordLine_encode]
  refine ⟨?_, hprint⟩
  rw [← hprint, flatMap_encodeBytes, disassembledWordsAssemble, List.filter_eq_self.mpr]
  intro w hw
  obtain ⟨i, -, rfl⟩ := List.mem_map.mp hw
  rw [opOfWord?_eq_some_iff.mpr (codecMatch_encode i)]
  rfl

/-! ### The normal form of a line (R202) -/

theorem decimalWith_append (fuel n : Nat) (ds : List Char) : decimalWith fuel n ds = decimalWith fuel n [] ++ ds := by
  induction fuel generalizing n ds with
  | zero => rfl
  | succ fuel ih =>
    rw [decimalWith, decimalWith]
    split
    · rfl
    · rw [ih, ih _ [_], List.append_assoc]
      rfl

theorem decimalWith_of_lt {fuel fuel' n : Nat} (h : n < fuel) (h' : n < fuel') (ds : List Char) :
    decimalWith fuel n ds = decimalWith fuel' n ds := by
  induction fuel generalizing fuel' n ds with
  | zero => omega
  | succ fuel ih =>
    obtain ⟨fuel', rfl⟩ : ∃ k, fuel' = k + 1 := ⟨fuel' - 1, by omega⟩
    rw [decimalWith, decimalWith]
    split
    · rfl
    · exact ih (by omega) (by omega) _

theorem decimal_of_lt {n : Nat} (h : n < 10) : decimal n = [digitChar n] := by
  rw [decimal, decimalWith, if_pos h]

/-- A further digit behind a number that is not 0 is printed behind its digits. -/
theorem decimal_mul_add {n d : Nat} (hn : 0 < n) (hd : d < 10) : decimal (n * 10 + d) = decimal n ++ [digitChar d] := by
  rw [decimal, decimalWith, if_neg (by omega), show (n * 10 + d) / 10 = n by omega,
    show (n * 10 + d) % 10 = d by omega, decimalWith_of_lt (fuel' := n + 1) (by omega) (by omega), decimalWith_append]
  rfl

theorem digitChar_of_digitValue? {c : Char} {d : Nat} (h : digitValue? c = some d) : d < 10 ∧ digitChar d = c := by
  unfold digitValue? at h
  split at h
  case isFalse => cases h
  next hc =>
    cases h
    have hlo : '0'.toNat ≤ c.toNat := hc.1
    have hhi : c.toNat ≤ '0'.toNat + 9 := hc.2
    refine ⟨by omega, ?_⟩
    rw [digitChar, Nat.add_sub_of_le hlo, Char.ofNat_toNat]

/-- Digits read behind a number that is not 0 print as they stand. -/
theorem decimal_of_readDigits {acc v : Nat} {t : List Char} (hacc : 0 < acc) (h : readDigits acc t = some v) :
    decimal v = decimal acc ++ t := by
  induction t generalizing acc with
  | nil =>
    cases h
    simp
  | cons c t ih =>
    rw [readDigits] at h
    split at h
    case h_2 => cases h
    next d hc =>
      obtain ⟨hd, rfl⟩ := digitChar_of_digitValue? hc
      rw [ih (by omega) h, decimal_mul_add hacc hd, List.append_assoc]
      rfl

/-- The digits of a number print without their leading zeros. -/
theorem stripZeros_eq_decimal {t : List Char} {v : Nat} (h : readDigits 0 t = some v) : stripZeros t = decimal v := by
  induction t with
  | nil =>
    cases h
    decide
  | cons c t ih =>
    by_cases hc : c = '0'
    · rw [hc] at h ⊢
      exact ih h
    · rw [readDigits] at h
      split at h
      case h_2 => cases h
      next d hd =>
        obtain ⟨hlt, rfl⟩ := digitChar_of_digitValue? hd
        have hpos : 0 < d := by
          rw [Nat.pos_iff_ne_zero]
          rintro rfl
          exact hc rfl
        rw [decimal_of_readDigits (by omega) h, Nat.zero_mul, Nat.zero_add, decimal_of_lt hlt, stripZeros,
          List.dropWhile_cons_of_neg (by simpa using hc)]
        rfl

theorem stripZeros_trim_of_parseOperand {p : List Char} {v : Nat} (h : parseOperand p = some v) :
    stripZeros (trim p) = decimal v := by
  have hne : trim p ≠ [] := fun he => by simp [parseOperand, he] at h
  exact stripZeros_eq_decimal (parseOperand_of_ne_nil hne ▸ h)

/-- Operands that were read print as their pieces do in the normal form. -/
theorem printOperands_of_parse {t : List Char} {vs : List Nat} (ht : t ≠ []) (h : parseOperands t = some vs) :
    printOperands vs = List.intercalate [','] ((splitAt ',' t).map fun p => stripZeros (trim p)) := by
  rw [parseOperands_of_ne_nil ht, parsePieces_eq_some_iff] at h
  have hpieces : (splitAt ',' t).map (fun p => stripZeros (trim p)) = vs.map decimal := by
    rw [← List.forall₂_eq_eq_eq, List.forall₂_map_left_iff, List.forall₂_map_right_iff]
    exact h.imp fun _ _ => stripZeros_trim_of_parseOperand
  rw [printOperands, hpieces]

theorem ne_nil_of_parse {t : List Char} {vs : List Nat} (ht : t ≠ []) (h : parseOperands t = some vs) : vs ≠ [] := by
  rintro rfl
  rw [parseOperands_of_ne_nil ht, parsePieces_eq_some_iff, List.forall₂_nil_right_iff, splitAt_eq_splitOn] at h
  exact List.splitOn_ne_nil _ _ h

/-- A line with a known mnemonic that assembles: what R193 checked. -/
theorem assembleLine_eq_ok {line : List Char} {w : Word} {o : Op} (h : assembleLine line = .ok w)
    (ho : Op.ofMnemonic? (String.ofList (lineMnemonic line)) = some o) :
    ∃ vs, parseOperands (lineOperandText line) = some vs ∧ o.format.check vs = none ∧ w = o.word vs := by
  simp only [assembleLine, ho] at h
  split at h
  · cases h
  · next vs hvs =>
    split at h <;> cases h
    next hcheck => exact ⟨vs, hvs, hcheck, rfl⟩

theorem wordLine_of_assembleLine {line : List Char} {w : Word}
    (hknown : (Op.ofMnemonic? (String.ofList (lineMnemonic line))).isSome = true) (h : assembleLine line = .ok w) :
    normalLine line = wordLine w := by
  obtain ⟨o, ho⟩ := Option.isSome_iff_exists.mp hknown
  obtain ⟨vs, hvs, hcheck, rfl⟩ := assembleLine_eq_ok h ho
  have hm : lineMnemonic line = o.mnemonic.toList := by
    rw [← ofMnemonic?_eq_some_iff.mp ho, String.toList_ofList]
  rw [wordLine_word hcheck, printLine_eq, normalLine]
  split
  · next he =>
    rw [he] at hvs
    cases hvs
    simp [hm, printTail]
  · next he =>
    rw [hm, printTail, if_neg (ne_nil_of_parse he hvs), printOperands_of_parse he hvs]

/-- Settles O58: each source line is read as a word that prints as the line's normal form. -/
theorem disassembledTextIsNormalised : Obligations.DisassembledTextIsNormalised := by
  intro text bytes h hknown
  obtain ⟨ws, hws, rfl⟩ := assemble_eq_ok_iff.mp h
  have hlines : (sourceLines text).map normalLine = ws.map wordLine := by
    rw [← List.forall₂_eq_eq_eq, List.forall₂_map_left_iff, List.forall₂_map_right_iff]
    exact ((List.forall₂_and_left _ _).mpr ⟨hknown, hws⟩).imp fun _ _ ⟨hl, hw⟩ => wordLine_of_assembleLine hl hw
  rw [disassemble_flatMap, hlines]

/-! ### Blanks around an operand text (R189) -/

theorem dropWhile_concat_of_blank {c : Char} (hc : isBlank c = true) (t : List Char) :
    (t ++ [c]).dropWhile isBlank = if (t.dropWhile isBlank).isEmpty then [] else t.dropWhile isBlank ++ [c] := by
  rw [List.dropWhile_append, List.dropWhile_cons_of_pos hc, List.dropWhile_nil]

theorem trim_cons_of_blank {c : Char} (hc : isBlank c = true) (t : List Char) : trim (c :: t) = trim t :=
  trim_append_of_blanks (b := [c]) (by simpa using hc) t

theorem trim_concat_of_blank {c : Char} (hc : isBlank c = true) (t : List Char) : trim (t ++ [c]) = trim t := by
  rw [trim_eq, dropWhile_concat_of_blank hc, trim_eq]
  split
  · next h => rw [List.isEmpty_iff.mp h]
  · exact List.rdropWhile_concat_pos _ _ _ hc

section
variable {α : Type} {f : List Char → α}

/-- What keeps its value when a blank is taken from the left end keeps it when all are. -/
theorem apply_dropWhile (h : ∀ c t, isBlank c = true → f (c :: t) = f t) (t : List Char) :
    f (t.dropWhile isBlank) = f t := by
  induction t with
  | nil => rfl
  | cons c t ih =>
    by_cases hc : isBlank c = true
    · rw [List.dropWhile_cons_of_pos hc, ih, h c t hc]
    · rw [List.dropWhile_cons_of_neg hc]

/-- The same at the right end. -/
theorem apply_rdropWhile (h : ∀ c t, isBlank c = true → f (t ++ [c]) = f t) (t : List Char) :
    f (t.rdropWhile isBlank) = f t := by
  induction t using List.reverseRecOn with
  | nil => rfl
  | append_singleton t c ih =>
    by_cases hc : isBlank c = true
    · rw [List.rdropWhile_concat_pos _ _ _ hc, ih, h c t hc]
    · rw [List.rdropWhile_concat_neg _ _ _ hc]

end

theorem trim_rdropWhile (t : List Char) : trim (t.rdropWhile isBlank) = trim t :=
  apply_rdropWhile (fun _ t hc => trim_concat_of_blank hc t) t

theorem ne_comma_of_blank {c : Char} (hc : isBlank c = true) : c ≠ ',' := by
  rintro rfl
  cases hc

/-- A blank on the left goes to the first piece. -/
theorem splitAt_map_trim_cons {c : Char} (hc : isBlank c = true) (t : List Char) :
    (splitAt ',' (c :: t)).map trim = (splitAt ',' t).map trim := by
  rw [splitAt, if_neg (ne_comma_of_blank hc)]
  split
  · next h =>
    rw [splitAt_eq_splitOn] at h
    exact absurd h (List.splitOn_ne_nil _ _)
  · next p ps h => rw [h, List.map_cons, List.map_cons, trim_cons_of_blank hc]

/-- A character on the right that does not separate goes to the last piece. -/
theorem exists_splitAt_concat {c sep : Char} (hc : c ≠ sep) (t : List Char) :
    ∃ ps p, splitAt sep t = ps ++ [p] ∧ splitAt sep (t ++ [c]) = ps ++ [p ++ [c]] := by
  induction t with
  | nil => exact ⟨[], [], rfl, by simp [splitAt, hc]⟩
  | cons d t ih =>
    obtain ⟨ps, p, h, h'⟩ := ih
    rw [List.cons_append, splitAt, splitAt, h, h']
    by_cases hd : d = sep
    · exact ⟨[] :: ps, p, by simp [hd], by simp [hd]⟩
    · cases ps with
      | nil => exact ⟨[], d :: p, by simp [hd], by simp [hd]⟩
      | cons q qs => exact ⟨(d :: q) :: qs, p, by simp [hd], by simp [hd]⟩

theorem splitAt_map_trim_concat {c : Char} (hc : isBlank c = true) (t : List Char) :
    (splitAt ',' (t ++ [c])).map trim = (splitAt ',' t).map trim := by
  obtain ⟨ps, p, h, h'⟩ := exists_splitAt_concat (ne_comma_of_blank hc) t
  rw [h, h', List.map_append, List.map_append, List.map_singleton, List.map_singleton, trim_concat_of_blank hc]

/-- Blanks around an operand text do not change its trimmed pieces. -/
theorem splitAt_trim_map_trim (t : List Char) : (splitAt ',' (trim t)).map trim = (splitAt ',' t).map trim := by
  rw [trim_eq, apply_rdropWhile (f := fun t => (splitAt ',' t).map trim) fun _ t hc => splitAt_map_trim_concat hc t,
    apply_dropWhile (f := fun t => (splitAt ',' t).map trim) fun _ t hc => splitAt_map_trim_cons hc t]

/-- An operand text with a piece that is no decimal number does not parse. -/
theorem parseOperands_trim_eq_none {t p : List Char} (ht : trim t ≠ []) (hp : p ∈ splitAt ',' t)
    (hdec : ¬ IsDecimal (trim p)) : parseOperands (trim t) = none := by
  rw [parseOperands_of_ne_nil ht, Option.eq_none_iff_forall_ne_some]
  intro vs hvs
  have hmem : trim p ∈ (splitAt ',' (trim t)).map trim :=
    splitAt_trim_map_trim t ▸ List.mem_map_of_mem hp
  obtain ⟨q, hq, hqp⟩ := List.mem_map.mp hmem
  exact hdec (hqp ▸ isDecimal_of_parsePieces hvs q hq)

/-! ### Lines that are not printed ones -/

theorem assembleLine_unknown {line : List Char} (h : Op.ofMnemonic? (String.ofList (lineMnemonic line)) = none) :
    assembleLine line = .ok 0 := by
  simp only [assembleLine, h]

theorem assembleLine_operandParse {o : Op} {r : List Char} (hr : ∀ c ∈ r.head?, isBlank c = true)
    (hp : parseOperands (trim r) = none) : assembleLine (o.mnemonic.toList ++ r) = .error .operandParse := by
  simp only [assembleLine, lineMnemonic_append (mnemonic_not_blank o) hr, String.ofList_toList,
    Laws.Canonical.ofMnemonic_mnemonic, lineOperandText_append (mnemonic_not_blank o) hr, hp]

theorem assembleLine_operandCount {o : Op} {vs : List Nat} (h : vs.length ≠ o.format.limits.length) :
    assembleLine (printLine o vs) = .error .operandCount := by
  simp only [assembleLine, ofMnemonic?_printLine, lineOperandText_printLine, parseOperands_printOperands, Format.check,
    if_pos h]

theorem assembleLine_operandRange {o : Op} {vs : List Nat} (hlen : vs.length = o.format.limits.length)
    (h : operandsFit vs o.format.limits = false) : assembleLine (printLine o vs) = .error .operandRange := by
  simp [assembleLine, ofMnemonic?_printLine, lineOperandText_printLine, parseOperands_printOperands, Format.check, hlen,
    h]

theorem assemble_printLine_error {o : Op} {vs : List Nat} {k : FailureKind}
    (h : assembleLine (printLine o vs) = .error k) :
    assemble (String.ofList (printLine o vs)) = .error [⟨1, o.mnemonic, k⟩] := by
  rw [assemble_of_line_error (newline_not_mem_printLine o vs) (trim_dropCr_printLine o vs) (printLine_ne_nil o vs) h,
    lineMnemonic_printLine, String.ofList_toList]

/-- A blank that starts a text starts what trimming its other end leaves of it. -/
theorem isBlank_of_mem_head?_rdropWhile {r : List Char} (hr : ∀ c ∈ r.head?, isBlank c = true) :
    ∀ c ∈ (r.rdropWhile isBlank).head?, isBlank c = true := by
  intro c hc
  have hsplit : r.rdropWhile isBlank ++ r.rtakeWhile isBlank = r := List.rdropWhile_append_rtakeWhile
  exact hr c (by rw [← hsplit, List.head?_append, hc]; rfl)

theorem isBlank_of_blanks {b : List Char} (hb : Blanks b) : ∀ c ∈ b, isBlank c = true :=
  fun c hc => isBlank_iff.mpr (hb c hc)

theorem newline_not_mem_of_blanks {b : List Char} (hb : Blanks b) : '\n' ∉ b :=
  fun h => by simpa using hb _ h

theorem trim_blanks_word {lead m r : List Char} (hlead : Blanks lead) (hne : m ≠ [])
    (hm : ∀ c ∈ m, isBlank c = false) : trim (lead ++ m ++ r) = m ++ r.rdropWhile isBlank := by
  rw [List.append_assoc, trim_append_of_blanks (isBlank_of_blanks hlead), trim_word_append hne hm]

/-- The carriage return of a line whose mnemonic is followed by nothing, by one, or by a blank (R186). -/
theorem dropCr_after_mnemonic {m rest : List Char} (hne : m ≠ [])
    (hrest : rest = [] ∧ m.getLast? ≠ some '\r' ∨ rest = ['\r'] ∨ ∃ c ∈ rest.head?, c = ' ' ∨ c = '\t')
    (lead : List Char) :
    ∃ r, dropCr (lead ++ m ++ rest) = lead ++ m ++ r ∧ ∀ c ∈ r.head?, isBlank c = true := by
  obtain ⟨rfl, hlast⟩ | rfl | ⟨c, hc, hblank⟩ := hrest
  · refine ⟨[], ?_, by simp⟩
    rw [List.append_nil, dropCr_append hne, dropCr_of_getLast?_ne hlast]
  · exact ⟨[], by rw [dropCr_concat_cr, List.append_nil], by simp⟩
  · obtain ⟨rest, rfl⟩ : ∃ r, rest = c :: r := ⟨rest.tail, (List.cons_head?_tail hc).symm⟩
    have hb : isBlank c = true := isBlank_iff.mpr hblank
    rw [dropCr_append (List.cons_ne_nil c rest)]
    obtain rfl | hrest := eq_or_ne rest []
    · refine ⟨[c], ?_, by simpa using hb⟩
      rw [dropCr_of_getLast?_ne]
      rintro h
      obtain rfl : c = '\r' := by simpa using h
      cases hb
    · exact ⟨c :: dropCr rest, congrArg _ (dropCr_append hrest [c]), by simpa using hb⟩

/-- Settles O60: the one line of the text is trimmed to its mnemonic and what follows it, and read as that. -/
theorem unknownMnemonicsAndBadOperands : Obligations.UnknownMnemonicsAndBadOperands := by
  refine ⟨fun lead m rest hlead hne hm hnl hrest hunknown => ?unknown,
    fun o lead sep rest hlead hsep hnl ht ⟨p, hp, hdec⟩ => ?parse,
    fun o vs => ⟨fun hlen => ?count, fun hlen hfit => ?range⟩⟩
  case unknown =>
    have hmb : ∀ c ∈ m, isBlank c = false := fun c hc => by simp [isBlank, hm c hc]
    have hline : '\n' ∉ lead ++ m ++ rest := by
      simp only [List.mem_append, not_or]
      exact ⟨⟨newline_not_mem_of_blanks hlead, fun h => (hm _ h).2.2 rfl⟩, hnl⟩
    obtain ⟨r, hcr, hr⟩ := dropCr_after_mnemonic hne hrest lead
    refine assemble_of_line_ok hline (by rw [hcr, trim_blanks_word hlead hne hmb]) (by simp [hne])
      (assembleLine_unknown ?_)
    rwa [lineMnemonic_append hmb (isBlank_of_mem_head?_rdropWhile hr)]
  case parse =>
    have hrest : rest ≠ [] := fun h => ht (by rw [h]; rfl)
    have hsepb : isBlank sep = true := isBlank_of_blanks hsep sep (List.mem_singleton_self sep)
    have hline : '\n' ∉ lead ++ o.mnemonic.toList ++ sep :: rest := by
      simp only [List.mem_append, List.mem_cons, not_or]
      exact ⟨⟨newline_not_mem_of_blanks hlead, fun h => absurd (lt_of_mem_mnemonic o _ h) (by decide)⟩,
        fun h => newline_not_mem_of_blanks hsep (List.mem_singleton.mpr h), hnl⟩
    have hcr : dropCr (lead ++ o.mnemonic.toList ++ sep :: rest) = lead ++ o.mnemonic.toList ++ sep :: dropCr rest := by
      rw [dropCr_append (List.cons_ne_nil sep rest)]
      exact congrArg _ (dropCr_append hrest [sep])
    have hr := isBlank_of_mem_head?_rdropWhile (r := sep :: dropCr rest) (by simpa using hsepb)
    have hparse : parseOperands (trim ((sep :: dropCr rest).rdropWhile isBlank)) = none := by
      rw [trim_rdropWhile, trim_cons_of_blank hsepb]
      exact parseOperands_trim_eq_none ht hp hdec
    rw [assemble_of_line_error hline (by rw [hcr, trim_blanks_word hlead (mnemonic_ne_nil o) (mnemonic_not_blank o)])
      (List.append_ne_nil_of_left_ne_nil (mnemonic_ne_nil o) _) (assembleLine_operandParse hr hparse),
      lineMnemonic_append (mnemonic_not_blank o) hr, String.ofList_toList]
  case count => exact assemble_printLine_error (assembleLine_operandCount hlen)
  case range => exact assemble_printLine_error (assembleLine_operandRange hlen hfit)

end Sys2Proof.Machine

/-!
The cycle and control flow (`40_step_cycle.md`, `41_control_flow.md`). A placed word is what the next step fetches, and
a step with both gates open runs the word at pc: `CALL` and the `RET` at its target, or a jump to itself for ever.
-/

namespace Sys2Proof.Machine

open Sys2Proof.Claims

/-! ### The word a step runs -/

theorem runWord_of_decode {w : Word} {i : Instr} (h : decode w = .instr i) (s : State) : runWord w s = exec i s := by
  simp only [runWord, h]

/-- Settles O6: the open step runs the fetched word, which is the sum of the two bytes. -/
theorem stepRunsTheFetchedInstruction : Obligations.StepRunsTheFetchedInstruction := by
  intro s i hf hh hpc hdec
  rw [step_eq_runWord hf hh hpc]
  exact runWord_of_decode hdec s

/-- A state whose memory had a word's bytes stored at its pc fetches that word. -/
theorem fetchedWord_of_writeRun {s : State} {m : Memory} {w : Word} (hpc : s.pc.toNat ≤ 4094)
    (hmem : s.mem = Memory.writeRun m s.pc.toNat (bytesOfWord w)) : s.fetchedWord = w := by
  have hfit : s.pc.toNat + (bytesOfWord w).length ≤ 4096 := by
    change s.pc.toNat + 2 ≤ 4096
    omega
  rw [State.fetchedWord, hmem, Memory.read_writeRun _ _ _ hfit, Memory.read_writeRun _ _ _ hfit]
  simp [bytesOfWord, wordOfBytes_high_low]

theorem placeWord_pc_le (w : Word) (s : State) : (placeWord w s).pc.toNat ≤ 4094 := by
  by_cases h : s.pc.toNat ≤ 4094 <;> simp [placeWord, State.fetchFits, h]

theorem step_placeWord (w : Word) (s : State) : step (placeWord w s) = runWord w (placeWord w s) := by
  rw [step_eq_runWord rfl rfl (placeWord_pc_le w s), fetchedWord_of_writeRun (placeWord_pc_le w s) rfl]

/-- The bytes of a word decode as the word does, with nothing left over. -/
theorem decodeBytes_of_instr {w : Word} {i : Instr} (h : decode w = .instr i) :
    decodeBytes (bytesOfWord w) = .ok (i, []) := by
  simp only [bytesOfWord, decodeBytes, wordOfBytes_high_low, h]

theorem decodeBytes_of_undefined {w : Word} {g : UndefinedGroup} (h : decode w = .undefined g) :
    decodeBytes (bytesOfWord w) = .error (.undefinedWord g) := by
  simp only [bytesOfWord, decodeBytes, wordOfBytes_high_low, h]

theorem decodeTableWord_eq_some_iff (w : Nat) (i : Instr) :
    decodeTableWord 16 w = some i ↔ decode (BitVec.ofNat 16 (w % 2 ^ 16)) = .instr i := by
  rw [decodeTableWord]
  generalize BitVec.ofNat 16 (w % 2 ^ 16) = v
  cases h : decode v with
  | instr j => simp [decodeBytes_of_instr h]
  | undefined g => simp [decodeBytes_of_undefined h]

/-- A word is its low 16 bits. -/
theorem ofNat_mod_word (w : Nat) : BitVec.ofNat 16 (w % 2 ^ 16) = BitVec.ofNat 16 w :=
  BitVec.eq_of_toNat_eq (by simp)

/-- Settles O7: the placed word is fetched and run, and its bytes are decoded as the word is. -/
theorem placedWordRunsNext : Obligations.PlacedWordRunsNext := by
  intro s w
  rw [← ofNat_mod_word]
  exact ⟨step_placeWord _ s, decodeTableWord_eq_some_iff w⟩

/-! ### `CALL`, `RET`, `JPV` -/

theorem execRet_of_cons {s : State} {a : Word} {rest : List Word} (h : s.stack = a :: rest) :
    execRet s = .next { s with pc := a, stack := rest, ret := .ok .none } := by
  simp only [execRet, h, complete]

theorem execRet_of_nil {s : State} (h : s.stack = []) : execRet s = raise (.stackUnderflow s.pc) s := by
  simp only [execRet, h]

/-- Settles O17, by the two shapes of the stack. -/
theorem returnPopsOrUnderflows : Obligations.ReturnPopsOrUnderflows :=
  fun s => ⟨fun _ _ => execRet_of_cons, execRet_of_nil (s := s)⟩

/-- The word of R74 for `CALL` is its encoding. -/
theorem decode_call_word (nnn : Addr12) : decode (BitVec.ofNat 16 (0x2000 + nnn.toNat)) = .instr (.call nnn) :=
  decode_encode (.call nnn)

/-- Settles O16: at its limit `CALL` raises, below it and without one it pushes and jumps. -/
theorem callPushesTheReturnAddress : Obligations.CallPushesTheReturnAddress := by
  intro s nnn
  refine ⟨decode_call_word nnn, addrOperand_eq_ofNat nnn ▸ execCall_next nnn s, fun l => ⟨fun h => ?_, fun h => ?_⟩⟩
  · exact if_pos (congrArg some h.symm)
  · obtain ⟨hlimit, -⟩ | ⟨-, e⟩ := callWithLimit_cases (some l) nnn s
    · cases hlimit
      exact absurd h (lt_irrefl _)
    · rw [e]
      exact (execCall_next nnn s).symm

section
variable {s : State} (hf : s.fault = none) (hh : s.halted = false) (hpc : s.pc.toNat ≤ 4094)
include hf hh hpc

/-- An open step runs the instruction its word decodes to. -/
theorem step_eq_exec {w : Word} {i : Instr} (hw : s.fetchedWord = w) (hdec : decode w = .instr i) :
    step s = exec i s := by
  rw [step_eq_runWord hf hh hpc, hw, runWord_of_decode hdec]

theorem step_call {nnn : Addr12} (hw : s.fetchedWord = BitVec.ofNat 16 (0x2000 + nnn.toNat)) :
    step s = .next { s with stack := (s.pc + 2) :: s.stack, pc := addrOperand nnn, ret := .ok .none } :=
  (step_eq_exec hf hh hpc hw (decode_call_word nnn)).trans (execCall_next nnn s)

theorem step_ret {a : Word} {rest : List Word} (hw : s.fetchedWord = 0x00EE) (hstack : s.stack = a :: rest) :
    step s = .next { s with pc := a, stack := rest, ret := .ok .none } :=
  (step_eq_exec hf hh hpc (i := .ret) hw (by decide)).trans (execRet_of_cons hstack)

end

theorem addrOperand_toNat (nnn : Addr12) : (addrOperand nnn).toNat = nnn.toNat :=
  BitVec.toNat_setWidth_of_le (by decide)

/-- Settles O18: `CALL` leaves pc + 2 on the stack and memory as it was, so the second step, `RET`, pops it. -/
theorem callThenReturnRestores : Obligations.CallThenReturnRestores := by
  intro s nnn hf hh hpc hnnn hcall hret
  rw [← addrOperand_toNat] at hnnn hret
  have hstep := step_call hf hh hpc hcall
  rw [runCalls_cons (c := .step) hstep]
  have hback := step_ret (s := { s with stack := (s.pc + 2) :: s.stack, pc := addrOperand nnn, ret := .ok .none })
    hf hh hnnn hret rfl
  exact runCalls_cons (c := .step) hback []

/-- Settles O19: the word is the encoding of `JPV`, and the target is the 16-bit sum. -/
theorem jumpPlusV0 : Obligations.JumpPlusV0 := by
  intro s nnn
  refine ⟨decode_encode (.jpv nnn), ?_⟩
  rw [← zext16_add_addrOperand]
  rfl

/-! ### The end of a run (R248) -/

/-- A jump to pc leaves all but the returned value, so the core still has that jump at pc. -/
theorem step_of_endedOk {s : State} (h : s.endedOk) : step s = .next { s with ret := .ok .none } := by
  obtain ⟨hrun, hfit, nnn, hdec, htarget⟩ := h
  obtain ⟨hf, hh⟩ := s.running_iff.mp hrun
  rw [step_eq_runWord hf hh (of_decide_eq_true hfit), runWord_of_decode hdec]
  exact (execJp_eq_next nnn s _).mpr (by rw [htarget])

/-- Settles O55, by induction on the steps after the first. -/
theorem endedRunStaysPut : Obligations.EndedRunStaysPut := by
  intro s n h
  induction n generalizing s with
  | zero => exact runCalls_cons (c := .step) (step_of_endedOk h) []
  | succ n ih =>
    rw [List.replicate_succ, runCalls_cons (c := .step) (step_of_endedOk h)]
    exact ih { s with ret := .ok .none } h

end Sys2Proof.Machine

/-!
Load, arithmetic, logic, shift and random with the whole frame (`42_load_alu_random.md`). Every meaning is one
`writeReg` or one `writeFlagged`, and the written values are those of R130's numbers.
-/

namespace Sys2Proof.Machine

open Sys2Proof.Claims

/-- Settles O23: each of the four is one register write. -/
theorem moveAndBitwise : Obligations.MoveAndBitwise :=
  fun _ _ _ => ⟨registerResult_of_writeReg rfl, registerResult_of_writeReg rfl, registerResult_of_writeReg rfl,
    registerResult_of_writeReg rfl⟩

theorem eq_ofNat_of_toNat {a : Byte} {n : Nat} (h : a.toNat = n) : a = BitVec.ofNat 8 n := by
  rw [← h, BitVec.ofNat_toNat, BitVec.setWidth_eq]

section
variable (a b : Byte)

theorem byte_add_eq : a + b = BitVec.ofNat 8 ((a.toNat + b.toNat) % 256) :=
  eq_ofNat_of_toNat (BitVec.toNat_add a b)

theorem byte_sub_eq : a - b = BitVec.ofNat 8 ((a.toNat + 256 - b.toNat) % 256) := by
  have ha := a.isLt
  have hb := b.isLt
  refine eq_ofNat_of_toNat ?_
  rw [byte_sub_toNat]
  split <;> omega

theorem lowBitFlag_eq : lowBitFlag a = BitVec.ofNat 8 (a.toNat % 2) :=
  eq_ofNat_of_toNat (lowBitFlag_toNat a)

theorem highBitFlag_eq : highBitFlag a = BitVec.ofNat 8 (a.toNat / 128) :=
  eq_ofNat_of_toNat (highBitFlag_toNat a)

theorem byte_shiftRight_one_eq : a >>> 1 = BitVec.ofNat 8 (a.toNat / 2) :=
  eq_ofNat_of_toNat (byte_shiftRight_one_toNat a)

theorem byte_shiftLeft_one_eq : a <<< 1 = BitVec.ofNat 8 (a.toNat * 2 % 256) :=
  eq_ofNat_of_toNat (byte_shiftLeft_one_toNat a)

end

/-- Settles O24: each of the three is one flagged write. -/
theorem addAndSubtractWithFlag : Obligations.AddAndSubtractWithFlag := by
  intro s x y
  rw [← byte_add_eq, ← byte_sub_eq, ← byte_sub_eq]
  exact ⟨flagResult_of_writeFlagged rfl, flagResult_of_writeFlagged rfl, flagResult_of_writeFlagged rfl⟩

/-- Settles O25: both are flagged writes, of the source the quirk selects. -/
theorem shiftsWithFlag : Obligations.ShiftsWithFlag := by
  rintro s x y _ rfl
  rw [← lowBitFlag_eq, ← highBitFlag_eq, ← byte_shiftRight_one_eq, ← byte_shiftLeft_one_eq]
  exact ⟨flagResult_of_writeFlagged rfl, flagResult_of_writeFlagged rfl⟩

/-- Every register after `RND` with a given byte, and the whole frame (R142). -/
theorem rndWith_result (d : Byte) (x : RegIdx) (nn : Byte) (s : State) :
    ∃ t, rndWith d x nn s = .next t ∧ (∀ r, t.getV r = if r = x then d &&& nn else s.getV r) ∧
      t = { s with V := t.V, pc := s.pc + 2, draws := s.draws + 1, ret := .ok .none } :=
  ⟨_, (writeReg_eq_next x (d &&& nn) s.consume _).mpr rfl, fun r => s.getV_setV x r (d &&& nn), rfl⟩

/-- Settles O27: the word is the encoding of `RND`, which is `rndWith` of the free byte. -/
theorem randomByteIsMasked : Obligations.RandomByteIsMasked := by
  intro s x nn
  obtain ⟨t, ht, hregs, -⟩ := rndWith_result (Config.randomByte s.draws) x nn s
  exact ⟨decode_encode (.rnd x nn), rfl, ⟨t, ht, hregs⟩, fun d => rndWith_result d x nn s⟩

end Sys2Proof.Machine

/-!
Index register and memory with the whole frame (`43_index_memory.md`). What `BCD` and `STM` leave in memory is
`byteAfter`; what `LDM` leaves in the registers is `loadedRegs`. A memory in canonical form lists exactly the cells that
read differently from an unlisted address, in order, so what it reads determines it.
-/

namespace Sys2Proof.Machine

open Sys2Proof.Claims

/-- Settles O29: the 16-bit product is that of the byte, which is too small to wrap. -/
theorem fontAddress : Obligations.FontAddress := by
  intro s x
  have haddr : zext16 (s.getV x) * 5 = BitVec.ofNat 16 ((s.getV x).toNat * 5) := by
    rw [zext16, ← BitVec.ofNat_toNat, BitVec.ofNat_mul]
    rfl
  rw [← haddr]
  rfl

/-! ### `BCD`, `STM`, `LDM` within memory and beyond it -/

section
variable {last : Nat} {s : State}

theorem withRun_of_fits (h : s.I.toNat + last ≤ 4095) (k : State → Result) : withRun last s k = k s :=
  if_pos (decide_eq_true h)

theorem withRun_of_beyond (h : 4095 < s.I.toNat + last) (k : State → Result) :
    withRun last s k = raise (.memOutOfBounds (max s.I.toNat 4096)) s :=
  if_neg fun hfit => absurd (of_decide_eq_true hfit) (not_le.mpr h)

variable {x : RegIdx}

theorem execBcd_of_fits (h : s.I.toNat + 2 ≤ 4095) : execBcd x s = .next { s with
    mem := Memory.writeRun s.mem s.I.toNat (bcdDigits (s.getV x)), pc := s.pc + 2, ret := .ok .none } :=
  withRun_of_fits h _

theorem execBcd_of_beyond (h : 4095 < s.I.toNat + 2) :
    execBcd x s = raise (.memOutOfBounds (max s.I.toNat 4096)) s :=
  withRun_of_beyond h _

theorem execStm_of_fits (h : s.I.toNat + x.val ≤ 4095) : execStm x s = .next { s with
    mem := Memory.writeRun s.mem s.I.toNat (s.regsUpTo x), pc := s.pc + 2
    I := if s.indexQuirk then s.I else s.I + BitVec.ofNat 16 (x.val + 1), ret := .ok .none } := by
  rw [execStm, withRun_of_fits h, State.bulkIndex_eq]
  rfl

theorem execStm_of_beyond (h : 4095 < s.I.toNat + x.val) :
    execStm x s = raise (.memOutOfBounds (max s.I.toNat 4096)) s :=
  withRun_of_beyond h _

theorem execLdm_of_fits (h : s.I.toNat + x.val ≤ 4095) : execLdm x s = .next { s with
    V := s.loadedRegs x, pc := s.pc + 2
    I := if s.indexQuirk then s.I else s.I + BitVec.ofNat 16 (x.val + 1), ret := .ok .none } := by
  rw [execLdm, withRun_of_fits h, State.bulkIndex_eq]
  rfl

theorem execLdm_of_beyond (h : 4095 < s.I.toNat + x.val) :
    execLdm x s = raise (.memOutOfBounds (max s.I.toNat 4096)) s :=
  withRun_of_beyond h _

end

/-- The three digits make the byte again (R153). -/
theorem bcd_digits_sum (v : Byte) :
    100 * (BitVec.ofNat 8 (v.toNat / 100)).toNat + 10 * (BitVec.ofNat 8 (v.toNat / 10 % 10)).toNat +
      (BitVec.ofNat 8 (v.toNat % 10)).toNat = v.toNat := by
  have hv := v.isLt
  simp only [BitVec.toNat_ofNat]
  omega

/-- The memory after `BCD`, by the digit stored at each of the three addresses. -/
theorem read_writeRun_bcdDigits {s : State} (x : RegIdx) (h : s.I.toNat + 2 ≤ 4095) (a : Nat) :
    Memory.read (Memory.writeRun s.mem s.I.toNat (bcdDigits (s.getV x))) a =
      if a = s.I.toNat then BitVec.ofNat 8 ((s.getV x).toNat / 100)
      else if a = s.I.toNat + 1 then BitVec.ofNat 8 ((s.getV x).toNat / 10 % 10)
      else if a = s.I.toNat + 2 then BitVec.ofNat 8 ((s.getV x).toNat % 10)
      else Memory.read s.mem a := by
  rw [read_writeRun_eq_byteAfter (by rw [bcdDigits_length]; omega) a (storedByte_bcd x s a), byteAfter, storedByte]
  simp only [apply_ite (Option.getD · (Memory.read s.mem a)), Option.getD_some, Option.getD_none]

/-- Settles O30: within memory by `read_writeRun_bcdDigits`, beyond it the check comes before any write. -/
theorem bcdStoresTheDigits : Obligations.BcdStoresTheDigits := by
  refine fun s x => ⟨fun h => ⟨_, execBcd_of_fits h, read_writeRun_bcdDigits x h, ?_, rfl⟩, execBcd_of_beyond⟩
  simp only [read_writeRun_bcdDigits x h]
  simpa using bcd_digits_sum (s.getV x)

/-- I after a bulk transfer, as a number (R154, R155). -/
theorem bulkIndex_toNat (s : State) (x : RegIdx) :
    (if s.indexQuirk then s.I else s.I + BitVec.ofNat 16 (x.val + 1)).toNat =
      if s.indexQuirk then s.I.toNat else (s.I.toNat + x.val + 1) % 65536 := by
  split
  · rfl
  · rw [BitVec.toNat_add, BitVec.toNat_ofNat, Nat.add_mod_mod, Nat.add_assoc]

/-- V[0] .. V[x] at the addresses `STM` stored them to. -/
theorem read_writeRun_regsUpTo {s : State} {x j : RegIdx} (h : s.I.toNat + x.val ≤ 4095) (hj : j ≤ x) :
    Memory.read (Memory.writeRun s.mem s.I.toNat (s.regsUpTo x)) (s.I.toNat + j.val) = s.getV j := by
  have hj' : j.val ≤ x.val := hj
  rw [Memory.read_writeRun _ _ _ (by rw [State.regsUpTo_length]; omega), State.regsUpTo_length, if_pos (by omega),
    Nat.add_sub_cancel_left, State.regsUpTo_getD s hj', Fin.ofNat_val_eq_self]

/-- Settles O31: within memory the run of `STM` and its frame, beyond it the check comes before any write. -/
theorem storeRegisters : Obligations.StoreRegisters := by
  refine fun s x => ⟨fun h => ⟨_, execStm_of_fits h, fun j => read_writeRun_regsUpTo h, fun a ha => ?_,
    bulkIndex_toNat s x, rfl⟩, execStm_of_beyond⟩
  refine frameOfTheMemory (.stm x) s _ (execStm_of_fits h) a ?_
  simp only [Stores]
  omega

/-- Settles O32: within memory the loaded register file, beyond it the check comes before any load. -/
theorem loadRegisters : Obligations.LoadRegisters := by
  refine fun s x => ⟨fun h => ⟨_, execLdm_of_fits h, fun r => ?_, bulkIndex_toNat s x, rfl⟩, execLdm_of_beyond⟩
  exact State.getV_loadedRegs s _ x r rfl

/-- Settles O33: O32 from the stored memory, where each address of the run reads what O31 says. -/
theorem storeThenLoadRestoresRegisters : Obligations.StoreThenLoadRestoresRegisters := by
  intro s t x v hfit h
  cases (execStm_of_fits hfit).symm.trans h
  refine ⟨_, execLdm_of_fits hfit, fun r => ?_, rfl⟩
  rw [State.getV_loadedRegs _ _ x r rfl]
  split
  · next hr => exact read_writeRun_regsUpTo hfit hr
  · rfl

/-! ### The canonical form is unique (log entry 32) -/

section
variable {m : Memory}

theorem Memory.read_eq_of_mem (hm : m.Pairwise fun c d => c.1 < d.1) {c : Host.Cell} (hc : c ∈ m) :
    Memory.read m c.1 = c.2 := by
  induction m with
  | nil => simp at hc
  | cons d m ih =>
    obtain ⟨hd, hm⟩ := List.pairwise_cons.mp hm
    obtain rfl | hc := List.mem_cons.mp hc
    · exact if_pos rfl
    · rw [Memory.read, if_neg (hd c hc).ne, ih hm hc]

theorem Memory.mem_of_read_ne {a : Nat} (h : Memory.read m a ≠ unlistedByte a) : (a, Memory.read m a) ∈ m := by
  induction m with
  | nil => exact absurd rfl h
  | cons d m ih =>
    by_cases hd : d.1 = a
    · rw [Memory.read, if_pos hd, ← hd]
      exact List.mem_cons_self
    · rw [Memory.read, if_neg hd] at h ⊢
      exact List.mem_cons_of_mem d (ih h)

/-- The listed cells are those below 4096 that read differently from an unlisted address. -/
theorem Memory.mem_iff (hm : Memory.wf m) (c : Host.Cell) :
    c ∈ m ↔ c.1 < 4096 ∧ Memory.read m c.1 = c.2 ∧ c.2 ≠ unlistedByte c.1 := by
  obtain ⟨hrise, hcells⟩ := hm
  constructor
  · intro hc
    obtain ⟨hlt, hne⟩ := hcells c hc
    exact ⟨hlt, Memory.read_eq_of_mem hrise hc, hne⟩
  · rintro ⟨-, hread, hne⟩
    rw [← hread] at hne
    simpa [hread] using Memory.mem_of_read_ne hne

theorem Memory.nodup_of_wf (hm : Memory.wf m) : m.Nodup := by
  obtain ⟨hrise, -⟩ := hm
  exact hrise.imp fun hlt => ne_of_apply_ne Prod.fst hlt.ne

end

/-- Settles O35: by `Memory.mem_iff` the two lists have the same cells, and both rise. -/
theorem memoryFormIsUnique : Obligations.MemoryFormIsUnique := by
  intro m n hm hn hread
  have hcells : ∀ c, c ∈ m ↔ c ∈ n := by
    intro c
    rw [Memory.mem_iff hm, Memory.mem_iff hn]
    exact and_congr_right fun hlt => by rw [hread c.1 hlt]
  have hperm := (List.perm_ext_iff_of_nodup (Memory.nodup_of_wf hm) (Memory.nodup_of_wf hn)).mpr hcells
  exact hperm.eq_of_pairwise (fun c d _ _ hcd hdc => absurd hcd hdc.asymm) hm.1 hn.1

end Sys2Proof.Machine

/-!
Timers and host effects (`44_timers.md`, `45_host_effects.md`). A tick takes one from each timer that is not 0. A core
that waits for a key keeps all but timers and returned value under steps and ticks, so a delivery resumes it where
`WKEY` left it. A host that keeps its duties has a key pending exactly while the core is halted, since `WKEY`
alone halts.
-/

namespace Sys2Proof.Machine

open Sys2Proof.Claims

/-! ### Timers -/

/-- Settles O36: the three words are encodings, and each meaning is one write. -/
theorem timerInstructions : Obligations.TimerInstructions :=
  fun _ x => ⟨decode_encode (.gdt x), decode_encode (.sdt x), decode_encode (.sst x), registerResult_of_writeReg rfl,
    rfl, rfl⟩

theorem countDown_toNat (v : Byte) : (countDown v).toNat = v.toNat - 1 := by
  unfold countDown
  split
  · next h => rw [h]; rfl
  · bv_omega

/-- One count and then k more are k + 1. -/
theorem countDown_sub (v : Byte) (k : Nat) :
    BitVec.ofNat 8 ((countDown v).toNat - k) = BitVec.ofNat 8 (v.toNat - (k + 1)) := by
  rw [countDown_toNat, Nat.sub_sub, Nat.add_comm 1 k]

theorem tick_of_no_fault {s : State} (h : s.fault = none) :
    tick s = { s with dt := countDown s.dt, st := countDown s.st } := by
  simp [tick, h]

/-- Settles O37, by induction on the ticks. -/
theorem ticksCountDownToZero : Obligations.TicksCountDownToZero := by
  intro s k hf
  induction k generalizing s with
  | zero => simp
  | succ k ih =>
    have htick : applyCall .tick s = .next { s with dt := countDown s.dt, st := countDown s.st } :=
      congrArg _ (tick_of_no_fault hf)
    rw [List.replicate_succ, runCalls_cons htick, ih { s with dt := countDown s.dt, st := countDown s.st } hf,
      countDown_sub, countDown_sub]

/-! ### `DRW` and the key queries -/

/-- Settles O39: the word is the encoding of `DRW`, whose meaning emits without a branch. -/
theorem drawIsOnlyEmitted : Obligations.DrawIsOnlyEmitted :=
  fun _ x y n => ⟨decode_encode (.drw x y n), rfl⟩

theorem keyQueryWith_ifNotPressed (p : Bool) (x : RegIdx) (s : State) :
    keyQueryWith p x .ifNotPressed s = .next { s with
      pc := if p then s.pc + 2 else s.pc + 4
      draws := s.draws + 1, ret := .ok (.keyConditional x .ifNotPressed) } := by
  rw [keyQueryWith_eq, ite_ifNotPressed]

/-- Settles O40: both are `keyQueryWith`, on the free answer or on a given one. -/
theorem keyQueriesSkipOnTheAnswer : Obligations.KeyQueriesSkipOnTheAnswer :=
  fun s x => ⟨keyQueryWith_eq _ x .ifPressed s, keyQueryWith_ifNotPressed _ x s,
    fun p => ⟨keyQueryWith_eq p x .ifPressed s, keyQueryWith_ifNotPressed p x s⟩⟩

/-! ### A core that waits for a key (R180) -/

section
variable {s : State} (hf : s.fault = none)
include hf

theorem deliverKey_of_halted (hh : s.halted = true) (x : RegIdx) (k : Byte) :
    deliverKey x k s = { s.setV x k with halted := false } := by
  simp [deliverKey, hf, hh]

theorem deliverKey_of_not_halted (hh : s.halted = false) (x : RegIdx) (k : Byte) : deliverKey x k s = s := by
  simp [deliverKey, hf, hh]

end

theorem runCalls_deliverKey {s : State} (hf : s.fault = none) (hh : s.halted = true) (x : RegIdx) (k : Byte) :
    runCalls [.deliverKey x k] s = .next { s.setV x k with halted := false } :=
  congrArg Host.Outcome.next (deliverKey_of_halted hf hh x k)

theorem applyCall_waiting {s : State} (hf : s.fault = none) (hh : s.halted = true) {c : Call}
    (hc : c = .step ∨ c = .tick) :
    ∃ dt st ret, applyCall c s = .next { s with dt := dt, st := st, ret := ret } := by
  obtain rfl | rfl := hc
  · exact ⟨s.dt, s.st, _, haltedStepChangesNothing s hh⟩
  · exact ⟨_, _, s.ret, congrArg _ (tick_of_no_fault hf)⟩

/-- Steps and ticks leave a waiting core but for its timers and what the last step returned. -/
theorem runCalls_waiting {s : State} (hf : s.fault = none) (hh : s.halted = true) {calls : List Call}
    (hcalls : ∀ c ∈ calls, c = .step ∨ c = .tick) :
    ∃ dt st ret, runCalls calls s = .next { s with dt := dt, st := st, ret := ret } := by
  induction calls generalizing s with
  | nil => exact ⟨s.dt, s.st, s.ret, rfl⟩
  | cons c cs ih =>
    obtain ⟨hc, hcs⟩ := List.forall_mem_cons.mp hcalls
    obtain ⟨dt, st, ret, h⟩ := applyCall_waiting hf hh hc
    rw [runCalls_cons h]
    exact ih (s := { s with dt := dt, st := st, ret := ret }) hf hh hcs

/-- Settles O42: `WKEY` leaves a waiting core, `runCalls_waiting` keeps it, and the delivery writes V[x] alone. -/
theorem awaitedKeyResumesTheProgram : Obligations.AwaitedKeyResumesTheProgram := by
  refine fun s x => ⟨rfl, fun k calls hf hcalls => ?_⟩
  obtain ⟨dt, st, ret, hrun⟩ := runCalls_waiting
    (s := { s with halted := true, pc := s.pc + 2, ret := .ok (.awaitKey x) }) hf rfl hcalls
  have hdeliver := runCalls_deliverKey
    (s := { s with halted := true, pc := s.pc + 2, dt := dt, st := st, ret := ret }) hf rfl x k
  refine ⟨_, _, _, rfl, hrun, rfl, hdeliver, rfl, rfl, ?_, fun r hr => ?_⟩
  · exact (State.getV_setV ..).trans (if_pos rfl)
  · exact (State.getV_setV ..).trans (if_neg hr)

/-! ### A host that keeps its duties (R181) -/

/-- What a step leaves halted: as before, unless it returns `AwaitKey`, and then halted. -/
theorem step_halted {s t : State} (h : step s = .next t) :
    (∃ x, t.ret = .ok (.awaitKey x) ∧ t.halted = true) ∨
      ((∀ x, t.ret ≠ .ok (.awaitKey x)) ∧ t.halted = s.halted) := by
  by_cases hg : s.fault ≠ none ∨ s.halted = true
  · cases (step_gated hg).symm.trans h
    exact .inr ⟨by simp, rfl⟩
  · obtain ⟨hf, hh⟩ : s.fault = none ∧ s.halted = false := by simpa using hg
    obtain ⟨_, rfl⟩ | ⟨_, i, hdec, hi⟩ | ⟨_, _, _, rfl⟩ := step_running_cases hf hh h
    · exact .inr ⟨by simp, rfl⟩
    · by_cases hop : i.op = .wkey
      · cases i <;> simp [Instr.op] at hop
        case wkey x =>
          cases hi
          exact .inl ⟨x, rfl, rfl⟩
      · refine .inr ⟨fun x hx => hop ?_, exec_keeps_halted hi hop⟩
        have heffect := exec_ok_effect hi hx
        cases i <;> simp [hostEffect] at heffect
        rfl
    · exact .inr ⟨by simp, rfl⟩

theorem pendingAfterStep_awaitKey {t : State} {x : RegIdx} (h : t.ret = .ok (.awaitKey x)) (p : Option RegIdx) :
    pendingAfterStep t p = some x := by
  simp only [pendingAfterStep, h]

theorem pendingAfterStep_other {t : State} (h : ∀ x, t.ret ≠ .ok (.awaitKey x)) (p : Option RegIdx) :
    pendingAfterStep t p = p := by
  unfold pendingAfterStep
  split
  · next x hx => exact absurd hx (h x)
  · rfl

theorem hostedCall_step {s t : State} (h : step s = .next t) (p : Option RegIdx) :
    hostedCall .step ⟨s, p⟩ = .next ⟨t, pendingAfterStep t p⟩ := by
  simp only [hostedCall, h]

/-- A call the host makes is the driver's call on the core. -/
theorem applyCall_of_hostedCall {c : Call} {h u : Hosted} (hc : hostedCall c h = .next u) :
    applyCall c h.core = .next u.core := by
  obtain ⟨x, k, y, _, _, _, hrefused⟩ | hcall := hostedCall_cases c h
  · cases hrefused.symm.trans hc
  · exact hcall u hc

theorem tick_halted (s : State) : (tick s).halted = s.halted := by
  rw [tick_eq]

/-- A delivery never halts the core. -/
theorem halted_of_deliverKey_halted {s : State} {x : RegIdx} {k : Byte} (h : (deliverKey x k s).halted = true) :
    s.halted = true := by
  unfold deliverKey at h
  split at h
  · exact h
  · split at h
    · cases h
    · exact h

/-- A key is pending exactly while the core is halted: `WKEY` sets both, the awaited delivery clears both. -/
theorem hostedCall_keeps_pending {c : Call} {h u : Hosted} (hp : h.pending.isSome = h.core.halted)
    (hc : hostedCall c h = .next u) : u.pending.isSome = u.core.halted := by
  cases c with
  | step =>
    obtain ⟨t, ht⟩ := step_total h.core
    cases (hostedCall_step ht h.pending).symm.trans hc
    obtain ⟨x, hret, hhalted⟩ | ⟨hret, hhalted⟩ := step_halted ht
    · rw [pendingAfterStep_awaitKey hret, hhalted, Option.isSome_some]
    · rw [pendingAfterStep_other hret, hhalted, hp]
  | tick =>
    cases hc
    exact hp.trans (tick_halted h.core).symm
  | deliverKey x k =>
    rw [hostedCall] at hc
    split at hc <;> cases hc
    by_cases hd : (deliverKey x k h.core).halted = true
    · rw [if_pos hd, hp, hd, halted_of_deliverKey_halted hd]
    · rw [if_neg hd, Option.isSome_none, Bool.eq_false_of_not_eq_true hd]

/-- Along a run of such a host: the core of the driver's run, and a key pending exactly while it is halted. -/
theorem runHosted_next {calls : List Call} {h u : Hosted} (hp : h.pending.isSome = h.core.halted)
    (hrun : runHosted calls h = .next u) :
    runCalls calls h.core = .next u.core ∧ u.pending.isSome = u.core.halted := by
  induction calls generalizing h with
  | nil =>
    cases hrun
    exact ⟨rfl, hp⟩
  | cons c cs ih =>
    rw [runHosted] at hrun
    split at hrun
    · next v hv =>
      rw [runCalls_cons (applyCall_of_hostedCall hv)]
      exact ih (hostedCall_keeps_pending hp hv) hrun
    · cases hrun
    · cases hrun

/-- Settles O41: the two cases of `deliver_key`, the host's check of the register, and `runHosted_next` from a loaded
core, which is not halted. -/
theorem deliverKeyReleasesTheHalt : Obligations.DeliverKeyReleasesTheHalt := by
  intro s x k hf
  refine ⟨fun hh => ?halted, fun hh => deliverKey_of_not_halted hf hh x k, fun y hy => ?other, fun hh => ?awaited,
    fun hh => ?idle, fun t p ht hret => ?await, fun sq iq prog calls h hs hrun => ?run⟩
  case halted =>
    rw [deliverKey_of_halted hf hh]
    exact ⟨fun r => s.getV_setV x r k, rfl⟩
  case other => simp [hostedCall, deliveryAllowed, hy.symm]
  case awaited => simp [hostedCall, deliveryAllowed, deliverKey_of_halted hf hh]
  case idle => simp [hostedCall, deliveryAllowed, deliverKey_of_not_halted hf hh, hh]
  case await => rw [hostedCall_step ht, pendingAfterStep_awaitKey hret]
  case run =>
    obtain rfl := eq_loaded_of_construct hs
    exact runHosted_next rfl hrun

end Sys2Proof.Machine
